-- ==== Sys2Proof/Word.lean ====
section
/-! DEFINITION. The fixed-width types of the engine.
A bit vector `v` of the spec (00_scope R7, R8) is a `BitVec n` whose element `v[i]`, index 0 first and most
significant, is `v.getMsbD i`, so that `num(v)` is `v.toNat` and `a || b` is `a ++ b`.
A word field `w[hi:lo]` (R9) is numbered from the least significant bit: `w.extractLsb' lo (hi - lo + 1)`. -/

namespace Sys2Proof

/-- A byte, an integer 0 to 255 (00_scope R9). -/
abbrev Byte := BitVec 8

/-- One command word of the command port (20_memory R31, 30_encoding R45). -/
abbrev CmdWord := BitVec 16

/-- The status word (10_state R24). -/
abbrev StatusWord := BitVec 16

/-- A 64-bit block of data, or the 64-bit raw key (00_scope R6). -/
abbrev Block := BitVec 64

/-- A 28-bit half of the permuted key (00_scope R6). -/
abbrev KeyHalf := BitVec 28

/-- A 32-bit half of a block (00_scope R6). -/
abbrev Half := BitVec 32

/-- A 48-bit round key (00_scope R6). -/
abbrev RoundKey := BitVec 48

/-- The ordered sequence of exactly sixteen round keys (10_state R19). -/
abbrev RoundKeys := Vector RoundKey 16

/-- The eight byte slots of a 64-bit register that is filled byte by byte: slot `k` is `v[8k .. 8k+7]`
(10_state R14, R20; log entry 12). -/
abbrev Slots := Vector (BitVec 8) 8

end Sys2Proof
end

