-- ==== Sys2Proof/Syntax.lean ====
section
/-! DEFINITION. The six commands of the engine, one constructor per row of spec/opcode_table.json. -/

namespace Sys2Proof

/-- The direction of an instance, the operand of `INIT` and the content of `DIR` (10_state R17). -/
inductive Direction where
  | encrypt
  | decrypt
deriving DecidableEq, Repr

/-- A command (30_encoding R48). -/
inductive Instr where
  /-- `RESET`: return to the reset state (44_driver_commands R109). -/
  | reset
  /-- `KEYB imm8`: supply the next key byte (41_key_schedule R75). -/
  | keyb (imm8 : Byte)
  /-- `INIT d`: construct the instance (41_key_schedule R76). -/
  | init (d : Direction)
  /-- `KSCHED`: generate the round keys now (41_key_schedule R77). -/
  | ksched
  /-- `DATAB imm8`: supply the next message byte (44_driver_commands R107). -/
  | datab (imm8 : Byte)
  /-- `FINAL`: end of message (44_driver_commands R108). -/
  | final
deriving DecidableEq, Repr

end Sys2Proof
end

