-- ==== Sys2Proof/WellFormed.lean ====
section
/-! DEFINITION. Which commands and which command words are well formed.
Every operand of `Instr` ranges over exactly the values its field admits (30_encoding R47: a byte, a direction),
so no term of `Instr` is ill formed. What can be ill formed is a 16-bit word; 30_encoding R49 lists how,
and each item of its list is one named check here, written apart from the decoder. -/

namespace Sys2Proof

/-- Every term of `Instr` is well formed: the operand types are the operand ranges of 30_encoding R47. -/
def Instr.WellFormed : Instr → Bool
  | .reset => true
  | .keyb _ => true
  | .init _ => true
  | .ksched => true
  | .datab _ => true
  | .final => true

/-- `op` is not a reserved opcode: not `0x0` and not `0x7` to `0xF` (30_encoding R49). -/
def opcodeAssigned (w : CmdWord) : Bool :=
  decide (0x1 ≤ w.toNat / 4096 ∧ w.toNat / 4096 ≤ 0x6)

/-- The field `zero` is 0 (30_encoding R46, R49). -/
def zeroFieldClear (w : CmdWord) : Bool :=
  decide (w.toNat / 256 % 16 = 0)

/-- Where `op` is `0x1`, `0x4` or `0x6`, `imm8` is 0 (30_encoding R49). -/
def unusedOperandClear (w : CmdWord) : Bool :=
  decide (w.toNat / 4096 = 0x1 ∨ w.toNat / 4096 = 0x4 ∨ w.toNat / 4096 = 0x6 → w.toNat % 256 = 0)

/-- Where `op` is `0x3`, `cmd[7:1]` is 0 (30_encoding R49). -/
def initOperandClear (w : CmdWord) : Bool :=
  decide (w.toNat / 4096 = 0x3 → w.toNat % 256 / 2 = 0)

/-- A word is legal when it is in none of the four groups 30_encoding R49 lists as illegal. -/
def legalWord (w : CmdWord) : Bool :=
  opcodeAssigned w && zeroFieldClear w && unusedOperandClear w && initOperandClear w

end Sys2Proof
end

