-- ==== Sys2Proof/Decode.lean ====
section
/-! DEFINITION. The command encoding: the decoder, total on 16-bit words and refusing by name (30_encoding R50),
the encoder written from the same map (R48), and the map itself as mask and match rows. -/

namespace Sys2Proof

/-- Why a word is no command: the four groups of illegal words of 30_encoding R49. -/
inductive IllegalWord where
  /-- `op` is `0x0` or `0x7` to `0xF`. -/
  | reservedOpcode
  /-- `cmd[11:8]` is not 0. -/
  | zeroField
  /-- `RESET`, `KSCHED` or `FINAL` with `imm8` not 0. -/
  | unusedOperand
  /-- `INIT` with `cmd[7:1]` not 0. -/
  | initOperand
deriving DecidableEq, Repr

/-- What a 16-bit word decodes to (30_encoding R45): one of the six commands, or illegal. -/
inductive Decoded where
  | command (i : Instr)
  | illegal (why : IllegalWord)
deriving DecidableEq, Repr

/-- `cmd[15:12]` (30_encoding R46). -/
def opField (w : CmdWord) : BitVec 4 := w.extractLsb' 12 4

/-- `cmd[11:8]` (30_encoding R46). -/
def zeroField (w : CmdWord) : BitVec 4 := w.extractLsb' 8 4

/-- `cmd[7:0]` (30_encoding R46, R47). -/
def imm8Field (w : CmdWord) : Byte := w.extractLsb' 0 8

/-- `imm[7:1]`, which must be 0 in an `INIT` (30_encoding R47). -/
def initHighField (imm : Byte) : BitVec 7 := imm.extractLsb' 1 7

/-- `imm[0]` as a direction: 0 encrypt, 1 decrypt (30_encoding R47). -/
def directionField (imm : Byte) : Direction :=
  if imm.getLsbD 0 then .decrypt else .encrypt

/-- The operand bit of a direction (30_encoding R47). -/
def directionBit : Direction → BitVec 16
  | .encrypt => 0#16
  | .decrypt => 1#16

/-- `decode(w)` (30_encoding R50), in the order of the rule. -/
def decode (w : CmdWord) : Decoded :=
  let op := opField w
  let imm := imm8Field w
  if zeroField w ≠ 0#4 then .illegal .zeroField
  else if op = 0x1#4 then (if imm = 0#8 then .command .reset else .illegal .unusedOperand)
  else if op = 0x2#4 then .command (.keyb imm)
  else if op = 0x3#4 then
    (if initHighField imm = 0#7 then .command (.init (directionField imm)) else .illegal .initOperand)
  else if op = 0x4#4 then (if imm = 0#8 then .command .ksched else .illegal .unusedOperand)
  else if op = 0x5#4 then .command (.datab imm)
  else if op = 0x6#4 then (if imm = 0#8 then .command .final else .illegal .unusedOperand)
  else .illegal .reservedOpcode

/-- The word of a command (30_encoding R48). -/
def encode : Instr → CmdWord
  | .reset => 0x1000#16
  | .keyb imm8 => 0x2000#16 + imm8.zeroExtend 16
  | .init d => 0x3000#16 + directionBit d
  | .ksched => 0x4000#16
  | .datab imm8 => 0x5000#16 + imm8.zeroExtend 16
  | .final => 0x6000#16

/-- The mnemonic of a command, as spec/opcode_table.json spells it. -/
def mnemonic : Instr → String
  | .reset => "RESET"
  | .keyb _ => "KEYB"
  | .init _ => "INIT"
  | .ksched => "KSCHED"
  | .datab _ => "DATAB"
  | .final => "FINAL"

/-- A row of the opcode map of 30_encoding R48. -/
structure OpcodeRow where
  name : String
  mask : CmdWord
  value : CmdWord
deriving DecidableEq, Repr

/-- The opcode map of 30_encoding R48: a word is the command of a row exactly when `(w AND mask) = match`. -/
def opcodeMap : List OpcodeRow :=
  [ ⟨"RESET", 0xFFFF, 0x1000⟩,
    ⟨"KEYB", 0xFF00, 0x2000⟩,
    ⟨"INIT", 0xFFFE, 0x3000⟩,
    ⟨"KSCHED", 0xFFFF, 0x4000⟩,
    ⟨"DATAB", 0xFF00, 0x5000⟩,
    ⟨"FINAL", 0xFFFF, 0x6000⟩ ]

/-- The command a decoded word gives, if any. -/
def decodedInstr : Decoded → Option Instr
  | .command i => some i
  | .illegal _ => none

/-- The host's probe: the command the decoder reads from a table word of `nbits` bits. A command has exactly 16
bits and no operand words (30_encoding R45), so a word of more bits is no command. -/
def decodeTableWord (nbits w : Nat) : Option Instr :=
  if nbits ≤ 16 then decodedInstr (decode (BitVec.ofNat 16 (w % 2 ^ nbits))) else none

end Sys2Proof
end

