-- ==== Sys2Proof/Machine/Bits.lean ====
section
/-! DEFINITION. The bit-vector operators of the datapath (00_scope R7, R8; 40_permutation_network R55 to R59). -/

namespace Sys2Proof.Machine

/-- `num` of the vector `f 0, f 1, ..., f (n - 1)`: index 0 is the most significant bit (00_scope R8). -/
def numOfBits (f : Nat → Bool) : Nat → Nat
  | 0 => 0
  | n + 1 => 2 * numOfBits f n + (f n).toNat

/-- The bit vector of length `n` whose element `v[i]` is `f i` (00_scope R7). -/
def vecOfBits (n : Nat) (f : Nat → Bool) : BitVec n :=
  BitVec.ofNat n (numOfBits f n)

/-- `v[start .. start + len - 1]` (00_scope R7). -/
def slice {n : Nat} (v : BitVec n) (start len : Nat) : BitVec len :=
  vecOfBits len fun i => v.getMsbD (start + i)

/-- `PERMUTE(v, T)`: element `i` of the result is `v[T[i]]` (40_permutation_network R55). -/
def permute {m n : Nat} (v : BitVec m) (t : Vector (Fin m) n) : BitVec n :=
  vecOfBits n fun i => if h : i < n then v.getMsbD (t[i]) else false

/-- `XOR(a, b)` of equal lengths (40_permutation_network R56). -/
def xorVec {n : Nat} (a b : BitVec n) : BitVec n :=
  vecOfBits n fun i => a.getMsbD i != b.getMsbD i

/-- `BITS(b)`: element `j` is `b[7 - j]`, the bit of weight 128 first (40_permutation_network R57). -/
def bits (b : Byte) : BitVec 8 :=
  vecOfBits 8 fun j => b.getLsbD (7 - j)

/-- `BYTE(v)`: the byte whose value is `128*v[0] + 64*v[1] + ... + v[7]` (40_permutation_network R58). -/
def byte (v : BitVec 8) : Byte :=
  BitVec.ofNat 8
    (128 * (v.getMsbD 0).toNat + 64 * (v.getMsbD 1).toNat + 32 * (v.getMsbD 2).toNat + 16 * (v.getMsbD 3).toNat
      + 8 * (v.getMsbD 4).toNat + 4 * (v.getMsbD 5).toNat + 2 * (v.getMsbD 6).toNat + (v.getMsbD 7).toNat)

/-- `ROTL28(v, s)`: element `i` is `v[(i + s) mod 28]` (40_permutation_network R59). -/
def rotl28 (v : KeyHalf) (s : Nat) : KeyHalf :=
  vecOfBits 28 fun i => v.getMsbD ((i + s) % 28)

/-- The 64-bit vector whose byte slots `v[8k .. 8k+7]` are given (10_state R14, R20). -/
def joinSlots (v : Slots) : Block :=
  vecOfBits 64 fun i => (v.getD (i / 8) 0).getMsbD (i % 8)

/-- `v[8k .. 8k+7] <- x` (10_state R14, R20). Every use has `k < 8`. -/
def setSlot (v : Slots) (k : Nat) (x : BitVec 8) : Slots :=
  v.setIfInBounds k x

/-- `BITS(m 0, ..., m 7)`: eight bytes as one 64-bit vector, the first byte at the lowest indices
(40_permutation_network R57, 20_memory R35). -/
def blockOfBytes (m : Nat → Byte) : Block :=
  joinSlots #v[bits (m 0), bits (m 1), bits (m 2), bits (m 3), bits (m 4), bits (m 5), bits (m 6), bits (m 7)]

end Sys2Proof.Machine
end

