-- ==== Sys2Proof/Machine/Tables.lean ====
section
/-! DEFINITION. The constant tables wired into the engine (10_state R25, 20_memory R34): the six permutation tables
(40_permutation_network R61 to R66, 0-based, typed by their input length as 60_exceptions R120 asks), the rotation
amounts (R67) and the eight S-boxes (42_feistel_function R87). Every entry is the spec's (log entry 11). -/

namespace Sys2Proof.Machine

/-- `IP`, the initial permutation (40_permutation_network R61). -/
def tableIP : Vector (Fin 64) 64 :=
  #v[57, 49, 41, 33, 25, 17, 9, 1,
    59, 51, 43, 35, 27, 19, 11, 3,
    61, 53, 45, 37, 29, 21, 13, 5,
    63, 55, 47, 39, 31, 23, 15, 7,
    56, 48, 40, 32, 24, 16, 8, 0,
    58, 50, 42, 34, 26, 18, 10, 2,
    60, 52, 44, 36, 28, 20, 12, 4,
    62, 54, 46, 38, 30, 22, 14, 6]

/-- `FP`, the final permutation (40_permutation_network R62). -/
def tableFP : Vector (Fin 64) 64 :=
  #v[39, 7, 47, 15, 55, 23, 63, 31,
    38, 6, 46, 14, 54, 22, 62, 30,
    37, 5, 45, 13, 53, 21, 61, 29,
    36, 4, 44, 12, 52, 20, 60, 28,
    35, 3, 43, 11, 51, 19, 59, 27,
    34, 2, 42, 10, 50, 18, 58, 26,
    33, 1, 41, 9, 49, 17, 57, 25,
    32, 0, 40, 8, 48, 16, 56, 24]

/-- `PC1`, the 64 to 56 parity-drop compression (40_permutation_network R63). -/
def tablePC1 : Vector (Fin 64) 56 :=
  #v[56, 48, 40, 32, 24, 16, 8,
    0, 57, 49, 41, 33, 25, 17,
    9, 1, 58, 50, 42, 34, 26,
    18, 10, 2, 59, 51, 43, 35,
    62, 54, 46, 38, 30, 22, 14,
    6, 61, 53, 45, 37, 29, 21,
    13, 5, 60, 52, 44, 36, 28,
    20, 12, 4, 27, 19, 11, 3]

/-- `PC2`, the 56 to 48 compression (40_permutation_network R64). -/
def tablePC2 : Vector (Fin 56) 48 :=
  #v[13, 16, 10, 23, 0, 4,
    2, 27, 14, 5, 20, 9,
    22, 18, 11, 3, 25, 7,
    15, 6, 26, 19, 12, 1,
    40, 51, 30, 36, 46, 54,
    29, 39, 50, 44, 32, 47,
    43, 48, 38, 55, 33, 52,
    45, 41, 49, 35, 28, 31]

/-- `E`, the 32 to 48 expansion (40_permutation_network R65). -/
def tableE : Vector (Fin 32) 48 :=
  #v[31, 0, 1, 2, 3, 4,
    3, 4, 5, 6, 7, 8,
    7, 8, 9, 10, 11, 12,
    11, 12, 13, 14, 15, 16,
    15, 16, 17, 18, 19, 20,
    19, 20, 21, 22, 23, 24,
    23, 24, 25, 26, 27, 28,
    27, 28, 29, 30, 31, 0]

/-- `P`, the 32 to 32 diffusion permutation (40_permutation_network R66). -/
def tableP : Vector (Fin 32) 32 :=
  #v[15, 6, 19, 20, 28, 11, 27, 16,
    0, 14, 22, 25, 4, 17, 30, 9,
    1, 7, 23, 13, 31, 26, 2, 8,
    18, 12, 29, 5, 21, 10, 3, 24]

/-- `SHIFT[0..15]`, the per-round rotation amounts (40_permutation_network R67). -/
def tableSHIFT : Vector Nat 16 :=
  #v[1, 1, 2, 2, 2, 2, 2, 2, 1, 2, 2, 2, 2, 2, 2, 1]

/-- An S-box: 4 rows of 16 columns of 4-bit values (42_feistel_function R86). -/
abbrev SBox := Vector (Vector (BitVec 4) 16) 4

/-- `SBOX[0]`, the box the DES standard calls S1 (42_feistel_function R87). -/
def sbox0 : SBox :=
  #v[#v[14, 4, 13, 1, 2, 15, 11, 8, 3, 10, 6, 12, 5, 9, 0, 7],
    #v[0, 15, 7, 4, 14, 2, 13, 1, 10, 6, 12, 11, 9, 5, 3, 8],
    #v[4, 1, 14, 8, 13, 6, 2, 11, 15, 12, 9, 7, 3, 10, 5, 0],
    #v[15, 12, 8, 2, 4, 9, 1, 7, 5, 11, 3, 14, 10, 0, 6, 13]]

/-- `SBOX[1]`, the box the DES standard calls S2 (42_feistel_function R87). -/
def sbox1 : SBox :=
  #v[#v[15, 1, 8, 14, 6, 11, 3, 4, 9, 7, 2, 13, 12, 0, 5, 10],
    #v[3, 13, 4, 7, 15, 2, 8, 14, 12, 0, 1, 10, 6, 9, 11, 5],
    #v[0, 14, 7, 11, 10, 4, 13, 1, 5, 8, 12, 6, 9, 3, 2, 15],
    #v[13, 8, 10, 1, 3, 15, 4, 2, 11, 6, 7, 12, 0, 5, 14, 9]]

/-- `SBOX[2]`, the box the DES standard calls S3 (42_feistel_function R87). -/
def sbox2 : SBox :=
  #v[#v[10, 0, 9, 14, 6, 3, 15, 5, 1, 13, 12, 7, 11, 4, 2, 8],
    #v[13, 7, 0, 9, 3, 4, 6, 10, 2, 8, 5, 14, 12, 11, 15, 1],
    #v[13, 6, 4, 9, 8, 15, 3, 0, 11, 1, 2, 12, 5, 10, 14, 7],
    #v[1, 10, 13, 0, 6, 9, 8, 7, 4, 15, 14, 3, 11, 5, 2, 12]]

/-- `SBOX[3]`, the box the DES standard calls S4 (42_feistel_function R87). -/
def sbox3 : SBox :=
  #v[#v[7, 13, 14, 3, 0, 6, 9, 10, 1, 2, 8, 5, 11, 12, 4, 15],
    #v[13, 8, 11, 5, 6, 15, 0, 3, 4, 7, 2, 12, 1, 10, 14, 9],
    #v[10, 6, 9, 0, 12, 11, 7, 13, 15, 1, 3, 14, 5, 2, 8, 4],
    #v[3, 15, 0, 6, 10, 1, 13, 8, 9, 4, 5, 11, 12, 7, 2, 14]]

/-- `SBOX[4]`, the box the DES standard calls S5 (42_feistel_function R87). -/
def sbox4 : SBox :=
  #v[#v[2, 12, 4, 1, 7, 10, 11, 6, 8, 5, 3, 15, 13, 0, 14, 9],
    #v[14, 11, 2, 12, 4, 7, 13, 1, 5, 0, 15, 10, 3, 9, 8, 6],
    #v[4, 2, 1, 11, 10, 13, 7, 8, 15, 9, 12, 5, 6, 3, 0, 14],
    #v[11, 8, 12, 7, 1, 14, 2, 13, 6, 15, 0, 9, 10, 4, 5, 3]]

/-- `SBOX[5]`, the box the DES standard calls S6 (42_feistel_function R87). -/
def sbox5 : SBox :=
  #v[#v[12, 1, 10, 15, 9, 2, 6, 8, 0, 13, 3, 4, 14, 7, 5, 11],
    #v[10, 15, 4, 2, 7, 12, 9, 5, 6, 1, 13, 14, 0, 11, 3, 8],
    #v[9, 14, 15, 5, 2, 8, 12, 3, 7, 0, 4, 10, 1, 13, 11, 6],
    #v[4, 3, 2, 12, 9, 5, 15, 10, 11, 14, 1, 7, 6, 0, 8, 13]]

/-- `SBOX[6]`, the box the DES standard calls S7 (42_feistel_function R87). -/
def sbox6 : SBox :=
  #v[#v[4, 11, 2, 14, 15, 0, 8, 13, 3, 12, 9, 7, 5, 10, 6, 1],
    #v[13, 0, 11, 7, 4, 9, 1, 10, 14, 3, 5, 12, 2, 15, 8, 6],
    #v[1, 4, 11, 13, 12, 3, 7, 14, 10, 15, 6, 8, 0, 5, 9, 2],
    #v[6, 11, 13, 8, 1, 4, 10, 7, 9, 5, 0, 15, 14, 2, 3, 12]]

/-- `SBOX[7]`, the box the DES standard calls S8 (42_feistel_function R87). -/
def sbox7 : SBox :=
  #v[#v[13, 2, 8, 4, 6, 15, 11, 1, 10, 9, 3, 14, 5, 0, 12, 7],
    #v[1, 15, 13, 8, 10, 3, 7, 4, 12, 5, 6, 11, 0, 14, 9, 2],
    #v[7, 11, 4, 1, 9, 12, 14, 2, 0, 6, 10, 13, 15, 3, 5, 8],
    #v[2, 1, 14, 7, 4, 10, 8, 13, 15, 12, 9, 0, 3, 5, 6, 11]]

/-- `SBOX[0..7]` (42_feistel_function R87). -/
def tableSBOX : Vector SBox 8 :=
  #v[sbox0, sbox1, sbox2, sbox3, sbox4, sbox5, sbox6, sbox7]

/-- `SFLAT`, the eight S-boxes as flat tables (42_feistel_function R87): entry `num(b)` of `SFLAT[i]` is the value box `i`
gives for the 6-bit block `b`, one hexadecimal digit an entry, entry 0 first. The 4x16 tables are the normative form;
a statement relates the two. -/
def tableSFLAT : Vector (BitVec 256) 8 :=
  #v[
    0xE04FD7142EF2BD813AA66CCB599503784F1CE882D46921B7F5CB937E3AA0560D#256,
    0xF31D84E76FB2384E9C7021DAC6095BA50DE87AB1A34FD4125B86C76C90352EF9#256,
    0xAD0790E96334F65A12D8C57EBC4B2F81D16A4D9086F93807B41F2EC35BA5E27C#256,
    0x7DD8EB35066F90A31427825CB1CA4EF9A36F9006CAB17DD8F91435EB5C27824E#256,
    0x2ECB421C74A7BD6185503FFAD309E8964B281CB7A1DE728DF69FC0596A3405E3#256,
    0xCA1FA4F2972C698506D13D4EE07B53B894E3F25C2985CF3A7B0E41A716D0B86D#256,
    0x4DB02BE7F40981DA3EC3957C52AF6816164BBDD8C1347AE7A9F5608F0E52932C#256,
    0xD12F8D486AF3B714AC9536EB500EC97272B14E1794CAE82D0F6CA9D0F335568B#256]

end Sys2Proof.Machine
end

