-- ==== Sys2Proof/Machine/Feistel.lean ====
section
/-! DEFINITION. The Feistel round function `F` as a pure function (42_feistel_function R83 to R89). -/

namespace Sys2Proof.Machine

/-- The S-box row of a 6-bit block, `2*b[0] + b[5]` (42_feistel_function R85). -/
def sboxRow (b : BitVec 6) : Fin 4 :=
  ⟨2 * (b.getMsbD 0).toNat + (b.getMsbD 5).toNat, by
    have := Bool.toNat_le (b.getMsbD 0)
    have := Bool.toNat_le (b.getMsbD 5)
    omega⟩

/-- The S-box column of a 6-bit block, `8*b[1] + 4*b[2] + 2*b[3] + b[4]` (42_feistel_function R85). -/
def sboxColumn (b : BitVec 6) : Fin 16 :=
  ⟨8 * (b.getMsbD 1).toNat + 4 * (b.getMsbD 2).toNat + 2 * (b.getMsbD 3).toNat + (b.getMsbD 4).toNat, by
    have := Bool.toNat_le (b.getMsbD 1)
    have := Bool.toNat_le (b.getMsbD 2)
    have := Bool.toNat_le (b.getMsbD 3)
    have := Bool.toNat_le (b.getMsbD 4)
    omega⟩

/-- `SBOX[i][row][column]` for block `b` (42_feistel_function R86). -/
def substitute (i : Fin 8) (b : BitVec 6) : BitVec 4 :=
  tableSBOX[i][sboxRow b][sboxColumn b]

/-- `vec_4(s_i)`: the value box `i` gives for the 6-bit block `x[6i .. 6i+5]` (42_feistel_function R85, R86). -/
def substituteBlock (x : BitVec 48) (i : Fin 8) : BitVec 4 :=
  substitute i (slice x (6 * i.val) 6)

/-- The substitution result `y`: the eight boxes' values in block order, `y[4i .. 4i+3] = vec_4(s_i)`
(42_feistel_function R86). -/
def substituteAll (x : BitVec 48) : Half :=
  vecOfBits 32 fun j => (substituteBlock x (Fin.ofNat 8 (j / 4))).getMsbD (j % 4)

/-- `F(r, k)` (42_feistel_function R89). -/
def roundF (r : Half) (k : RoundKey) : Half :=
  permute (substituteAll (xorVec (permute r tableE) k)) tableP

end Sys2Proof.Machine
end

