-- ==== Sys2Proof/Machine/BlockCipher.lean ====
section
/-! DEFINITION. The per-block transform `BLOCK` as a pure function (43_block_datapath R93 to R98). -/

namespace Sys2Proof.Machine

/-- `key_i`, the round key of round `i`: forward to encrypt, reversed to decrypt (43_block_datapath R96). -/
def orderedKey (rk : RoundKeys) (d : Direction) (i : Nat) : RoundKey :=
  match d with
  | .encrypt => rk.getD i 0
  | .decrypt => rk.getD (15 - i) 0

/-- One round: both halves are written from the old pair (43_block_datapath R95). -/
def feistelRound (p : Half × Half) (k : RoundKey) : Half × Half :=
  (p.2, xorVec p.1 (roundF p.2 k))

/-- The pair `(L_i, R_i)` after `i` rounds (43_block_datapath R94, R95). -/
def blockHalves (b : Block) (rk : RoundKeys) (d : Direction) : Nat → Half × Half
  | 0 => (slice (permute b tableIP) 0 32, slice (permute b tableIP) 32 32)
  | i + 1 => feistelRound (blockHalves b rk d i) (orderedKey rk d i)

/-- `BLOCK(b, rk, d)`: sixteen rounds, the final swap and the final permutation (43_block_datapath R97, R98). -/
def block (b : Block) (rk : RoundKeys) (d : Direction) : Block :=
  permute ((blockHalves b rk d 16).2 ++ (blockHalves b rk d 16).1) tableFP

/-- The eight bytes of a block in the order they leave the engine (43_block_datapath R101). -/
def blockBytes (o : Block) : List Byte :=
  (List.range 8).map fun k => byte (slice o (8 * k) 8)

end Sys2Proof.Machine
end

