-- ==== Sys2Proof/Config.lean ====
section
/-! DEFINITION. What an implementation fixes, and the values the spec leaves open.
The one open parameter is `NINST` (00_scope R6). Every register the spec says "holds no value" (10_state R29,
93_implementation_defined V3, V4) holds free values: opaque functions below, applied to the model's counter
`State.draws`. Nothing in Lean can evaluate one, so no proof can rest on what it is (90_conflicts C8). -/

namespace Sys2Proof

/-- The open parameters of the model (00_scope R6): `ninst` is `NINST`, the number of independent engines, with
the default the spec gives. -/
structure Config.Params where
  ninst : Nat := 1
  ninst_pos : 1 ≤ ninst := by decide

/-- Free value (log entry 2): `keySlotNoValue k n` is what slot `k` of `KEY` holds when the spec says it holds no
value, at draw `n`. -/
opaque Config.keySlotNoValue : Nat → Nat → BitVec 8

/-- Free value (log entry 2): what `RK[0..15]` hold when the spec says they hold no value. -/
opaque Config.rkNoValue : Nat → RoundKeys

/-- Free value (log entries 2 and 4): `ibufSlotNoValue k n` is what slot `k` of `IBUF` holds when the spec says it
holds no value, at draw `n`. -/
opaque Config.ibufSlotNoValue : Nat → Nat → BitVec 8

/-- Eight slots that hold no value, at draw `n`: one free value each. -/
def Config.slotsNoValue (f : Nat → Nat → BitVec 8) (n : Nat) : Slots :=
  #v[f 0 n, f 1 n, f 2 n, f 3 n, f 4 n, f 5 n, f 6 n, f 7 n]

/-- `KEY` with no value in any slot, at draw `n`. -/
def Config.keyNoValue (n : Nat) : Slots :=
  Config.slotsNoValue Config.keySlotNoValue n

/-- `IBUF` with no value in any slot, at draw `n`. -/
def Config.ibufNoValue (n : Nat) : Slots :=
  Config.slotsNoValue Config.ibufSlotNoValue n

/-- Free value (log entries 2 and 5): what the working register `C` holds outside a step. -/
opaque Config.cNoValue : Nat → KeyHalf

/-- Free value (log entries 2 and 5): what the working register `D` holds outside a step. -/
opaque Config.dNoValue : Nat → KeyHalf

/-- Free value (log entries 2 and 5): what the working register `L` holds outside a step. -/
opaque Config.lNoValue : Nat → Half

/-- Free value (log entries 2 and 5): what the working register `R` holds outside a step. -/
opaque Config.rNoValue : Nat → Half

/-- Free value (log entries 2 and 5): what the working register `RND` holds outside a step. -/
opaque Config.rndNoValue : Nat → BitVec 4

end Sys2Proof
end

