-- ==== Sys2Proof/Machine/State.lean ====
section
/-! DEFINITION. The state of one engine (10_state R13), what the host can do to it (20_memory R43), the reset
state (10_state R29), and the host interface's stop reasons. State is plain data. -/

namespace Sys2Proof.Machine

/-- The driver's state, the content of `PHASE` (10_state R16). The codes 5, 6 and 7 never occur and have no name. -/
inductive Phase where
  /-- 0: no cipher instance exists; key bytes may be supplied. -/
  | idle
  /-- 1: an instance exists, the schedule has not been generated. -/
  | uninitialized
  /-- 2: the round keys are valid; no data command has been executed since. -/
  | keysScheduled
  /-- 3: the steady state in which messages are processed. -/
  | ready
  /-- 4: a fault was raised; every command but `RESET` is ignored. -/
  | fault
deriving DecidableEq, Repr

/-- A fault of the engine (60_exceptions R117). Raising one is a next state of the machine, never a stop. -/
inductive Cause where
  /-- `INIT` in `Idle` with fewer than 8 key bytes. -/
  | keyShort
  /-- A word that is no command. -/
  | illegalCmd
  /-- A command the current phase does not allow. -/
  | badSequence
deriving DecidableEq, Repr

/-- The content of `ECODE` (10_state R18): 0 no fault, 1 to 3 the three causes. -/
inductive ECode where
  | noFault
  | keyShort
  | illegalCmd
  | badSequence
deriving DecidableEq, Repr

/-- What the host does between steps that can change the engine (20_memory R43): it presents a command word, or
it asserts the reset input. Sampling `STATUS` and reading `OUT` change nothing and are no actions. -/
inductive HostAction where
  | command (w : CmdWord)
  | assertReset
deriving DecidableEq, Repr

/-- The complete state of one engine (10_state R13), its command port as the list of what the host has still to
present (20_memory R31; log entry 1), and the model's counter of free values (log entry 3). -/
structure State where
  /-- `KEY`, 64 bits as eight slots: the first 8 key bytes (R14). -/
  key : Slots
  /-- `KCNT`: how many key bytes have been captured (R15). -/
  kcnt : BitVec 4
  /-- `PHASE` (R16). -/
  phase : Phase
  /-- `DIR` (R17). -/
  dir : Direction
  /-- `ECODE` (R18). -/
  ecode : ECode
  /-- `RK[0..15]` (R19). -/
  rk : RoundKeys
  /-- `IBUF`, 64 bits as eight slots: the input block under assembly (R20). -/
  ibuf : Slots
  /-- `BCNT`: how many message bytes wait in `IBUF` (R21). -/
  bcnt : BitVec 3
  /-- `C`, working register of the key schedule (R22). -/
  c : KeyHalf
  /-- `D`, working register of the key schedule (R22). -/
  d : KeyHalf
  /-- `L`, working register of the block transform (R22). -/
  l : Half
  /-- `R`, working register of the block transform (R22). -/
  r : Half
  /-- `RND`, round counter of the block transform (R22). -/
  rnd : BitVec 4
  /-- `OUT`: every byte emitted, oldest first (R23). -/
  out : List Byte
  /-- The command port and the reset input: what the host will present, first to last. The model's own field. -/
  inputs : List HostAction
  /-- How many times a free value has been drawn. The model's own field; no statement rests on its value. -/
  draws : Nat
deriving DecidableEq, Repr

/-- Why a step stops with a fault: nothing does. Every 16-bit word in every state has an outcome, and the engine
never hangs and never blocks (44_driver_commands R105), so this type has no constructor (log entry 8). -/
inductive Fault where
deriving DecidableEq, Repr

/-- Why a step has no meaning. -/
inductive Refusal where
  /-- Raised only by an arm of `exec` whose command has no meaning yet; no arm is such. Safe: a run that meets it
  stops, so nothing false about the engine follows. -/
  | notModelled (mnemonic : String)
deriving DecidableEq, Repr

/-- The state a run starts in (10_state R29, 70_reset_and_hazards R130), with `OUT = []` and no command presented
yet. The registers that hold no value after reset hold free values (log entry 2). -/
def State.reset : State where
  key := Config.keyNoValue 0
  kcnt := 0#4
  phase := .idle
  dir := .encrypt
  ecode := .noFault
  rk := Config.rkNoValue 0
  ibuf := Config.ibufNoValue 0
  bcnt := 0#3
  c := Config.cNoValue 0
  d := Config.dNoValue 0
  l := Config.lNoValue 0
  r := Config.rNoValue 0
  rnd := Config.rndNoValue 0
  out := []
  inputs := []
  draws := 1

end Sys2Proof.Machine
end

