-- ==== Sys2Proof/Machine/Flags.lean ====
section
/-! DEFINITION. The codes of the control fields and the status word. The engine has no arithmetic flags
(40_permutation_network R69); `PHASE`, `DIR`, `ECODE`, `KCNT` and `BCNT` are its status (10_state R16 to R18, R24). -/

namespace Sys2Proof.Machine

/-- The code of a phase (10_state R16). -/
def phaseCode : Phase → BitVec 3
  | .idle => 0#3
  | .uninitialized => 1#3
  | .keysScheduled => 2#3
  | .ready => 3#3
  | .fault => 4#3

/-- The code of a direction: 0 encrypt, 1 decrypt (10_state R17). -/
def dirCode : Direction → BitVec 1
  | .encrypt => 0#1
  | .decrypt => 1#1

/-- The code `ECODE` shows (10_state R18, 60_exceptions R117). -/
def ecodeCode : ECode → BitVec 2
  | .noFault => 0#2
  | .keyShort => 1#2
  | .illegalCmd => 2#2
  | .badSequence => 3#2

/-- What `ECODE` records for a fault (60_exceptions R117). -/
def causeCode : Cause → ECode
  | .keyShort => .keyShort
  | .illegalCmd => .illegalCmd
  | .badSequence => .badSequence

/-- `STATUS`, the word the host may sample between steps: a pure function of the state (10_state R24,
20_memory R33). -/
def status (s : State) : StatusWord :=
  (phaseCode s.phase).zeroExtend 16 + 8#16 * (dirCode s.dir).zeroExtend 16 + 16#16 * (ecodeCode s.ecode).zeroExtend 16
    + 64#16 * s.kcnt.zeroExtend 16 + 1024#16 * s.bcnt.zeroExtend 16

end Sys2Proof.Machine
end

