-- ==== Sys2Proof/Machine/KeySchedule.lean ====
section
/-! DEFINITION. The round-key generator `KS` as a pure function (41_key_schedule R70, R71). -/

namespace Sys2Proof.Machine

/-- One round of the schedule on the halves: both are rotated by `SHIFT[n]` (41_key_schedule R71). -/
def rotateHalves (n : Nat) (p : KeyHalf × KeyHalf) : KeyHalf × KeyHalf :=
  (rotl28 p.1 (tableSHIFT.getD n 0), rotl28 p.2 (tableSHIFT.getD n 0))

/-- The halves `C_n` and `D_n` after `n` rounds: `C_0` is the first half of the compressed key, and each round
rotates the halves of the round before it (41_key_schedule R71). -/
def keyHalves (k : Block) : Nat → KeyHalf × KeyHalf
  | 0 => (slice (permute k tablePC1) 0 28, slice (permute k tablePC1) 28 28)
  | n + 1 => rotateHalves n (keyHalves k n)

/-- `rk[n]`, made from the halves rotated `n + 1` times (41_key_schedule R71). -/
def roundKeyOf (k : Block) (n : Nat) : RoundKey :=
  permute ((keyHalves k (n + 1)).1 ++ (keyHalves k (n + 1)).2) tablePC2

/-- `KS(k)`, the 16-entry round-key sequence (41_key_schedule R70, R71). -/
def ks (k : Block) : RoundKeys :=
  #v[roundKeyOf k 0, roundKeyOf k 1, roundKeyOf k 2, roundKeyOf k 3,
    roundKeyOf k 4, roundKeyOf k 5, roundKeyOf k 6, roundKeyOf k 7,
    roundKeyOf k 8, roundKeyOf k 9, roundKeyOf k 10, roundKeyOf k 11,
    roundKeyOf k 12, roundKeyOf k 13, roundKeyOf k 14, roundKeyOf k 15]

end Sys2Proof.Machine
end

