-- ==== Sys2Proof/Machine/Operands.lean ====
section
/-! DEFINITION. Where a command's byte operand goes. The only operands are a byte and a direction (30_encoding R47);
a byte is turned into eight vector bits by `BITS` and lands in the byte slot a counter chooses
(44_driver_commands R115). -/

namespace Sys2Proof.Machine

/-- The padding byte, a space (00_scope R6). -/
def padByte : Byte := 0x20#8

/-- `KEY[8*KCNT .. 8*KCNT+7] <- BITS(imm8); KCNT <- KCNT + 1` while `KCNT < 8`; later key bytes are dropped
(41_key_schedule R75). -/
def captureKeyByte (imm8 : Byte) (s : State) : State :=
  if s.kcnt < 8#4 then
    { s with key := setSlot s.key s.kcnt.toNat (bits imm8), kcnt := s.kcnt + 1#4 }
  else s

/-- `IBUF[8*BCNT .. 8*BCNT+7] <- BITS(imm8)` (44_driver_commands R107). -/
def storeMessageByte (imm8 : Byte) (s : State) : State :=
  { s with ibuf := setSlot s.ibuf s.bcnt.toNat (bits imm8) }

/-- `v` with `BITS(0x20)` in the `n` byte slots from `k` on. -/
def padSlots (v : Slots) (k : Nat) : Nat → Slots
  | 0 => v
  | n + 1 => padSlots (setSlot v k (bits padByte)) (k + 1) n

/-- `for k = BCNT .. 7: IBUF[8k .. 8k+7] <- BITS(0x20)` (44_driver_commands R108). -/
def padBlock (s : State) : State :=
  { s with ibuf := padSlots s.ibuf s.bcnt.toNat (8 - s.bcnt.toNat) }

end Sys2Proof.Machine
end

