-- ==== Sys2Proof/Machine/Ops.lean ====
section
/-! DEFINITION. The operations the meanings share: raising a fault and leaving it, the phase check, the output
port, the helpers `EnsureSchedule` and `EnsureReady`, and the processing of a complete block. -/

namespace Sys2Proof.Machine

/-- `raise F`: exactly `ECODE <- code(F); PHASE <- Fault`, applied to the state before the command, so that every
other write of the command is discarded (00_scope R11, 60_exceptions R123). -/
def raise (f : Cause) (s : State) : State :=
  { s with ecode := causeCode f, phase := .fault }

/-- The effect of the reset input and of `RESET` (10_state R29, 44_driver_commands R109, 70_reset_and_hazards R130,
R131), the only way out of `Fault` (60_exceptions R125). `OUT` is unchanged. The registers that hold no value
afterwards get free values, a fresh draw each time (log entry 2). -/
def resetEngine (s : State) : State :=
  { s with
    phase := .idle
    dir := .encrypt
    ecode := .noFault
    kcnt := 0#4
    bcnt := 0#3
    key := Config.keyNoValue s.draws
    rk := Config.rkNoValue s.draws
    ibuf := Config.ibufNoValue s.draws
    c := Config.cNoValue s.draws
    d := Config.dNoValue s.draws
    l := Config.lNoValue s.draws
    r := Config.rNoValue s.draws
    rnd := Config.rndNoValue s.draws
    draws := s.draws + 1 }

/-- Whether a cipher instance exists: the phases in which `KSCHED`, `DATAB` and `FINAL` are legal
(44_driver_commands R104). -/
def hasInstance : Phase → Bool
  | .idle => false
  | .uninitialized => true
  | .keysScheduled => true
  | .ready => true
  | .fault => false

/-- Whether no instance exists and key bytes may be supplied: the phase in which `KEYB` and `INIT` are legal
(44_driver_commands R104). -/
def acceptsKey : Phase → Bool
  | .idle => true
  | .uninitialized => false
  | .keysScheduled => false
  | .ready => false
  | .fault => false

/-- The checks before a command's own effect: in `Fault` the command is ignored, in a phase that does not allow it
`BadSequence` is raised (44_driver_commands R104, R105; 60_exceptions R122, R124). -/
def whenLegal (legal : Phase → Bool) (effect : State → State) (s : State) : State :=
  if s.phase = .fault then s
  else if legal s.phase then effect s
  else raise .badSequence s

/-- `Emit(b)`: append a byte to the output stream; the sink always accepts (20_memory R32). -/
def emit (b : Byte) (s : State) : State :=
  { s with out := s.out ++ [b] }

/-- `EmitBlock(o)`: emit the eight bytes of `o` in ascending order (43_block_datapath R101). -/
def emitBlock (o : Block) (s : State) : State :=
  (blockBytes o).foldl (fun t b => emit b t) s

/-- `EnsureSchedule`: `RK[0..15] <- KS(KEY); PHASE <- KeysScheduled` when `PHASE = Uninitialized`
(41_key_schedule R78). The schedule leaves its working registers with no value (10_state R22; log entry 5). -/
def ensureSchedule (s : State) : State :=
  if s.phase = .uninitialized then
    { s with
      rk := ks (joinSlots s.key)
      phase := .keysScheduled
      c := Config.cNoValue s.draws
      d := Config.dNoValue s.draws
      draws := s.draws + 1 }
  else s

/-- `EnsureReady`: `EnsureSchedule; PHASE <- Ready` (44_driver_commands R106). -/
def ensureReady (s : State) : State :=
  { ensureSchedule s with phase := .ready }

/-- The complete block in `IBUF` is transformed and emitted, and `BCNT <- 0` (44_driver_commands R107, R108).
Afterwards no byte of `IBUF` holds a value (10_state R20; log entry 4), nor do the working registers of the
transform (10_state R22; log entry 5). -/
def completeBlock (s : State) : State :=
  { emitBlock (block (joinSlots s.ibuf) s.rk s.dir) s with
    bcnt := 0#3
    ibuf := Config.ibufNoValue s.draws
    l := Config.lNoValue s.draws
    r := Config.rNoValue s.draws
    rnd := Config.rndNoValue s.draws
    draws := s.draws + 1 }

end Sys2Proof.Machine
end

