-- ==== Sys2Proof/Machine/DataCommands.lean ====
section
/-! DEFINITION. The meanings of the data commands `DATAB` and `FINAL` (44_driver_commands R107, R108). -/

namespace Sys2Proof.Machine

/-- The effect of `DATAB imm8` once its phase check has passed (44_driver_commands R107). -/
def acceptByte (imm8 : Byte) (s : State) : State :=
  let t := storeMessageByte imm8 (ensureReady s)
  if t.bcnt = 7#3 then completeBlock t else { t with bcnt := t.bcnt + 1#3 }

/-- `DATAB imm8` (44_driver_commands R107). -/
def execDatab (imm8 : Byte) (s : State) : Host.Outcome State Fault Refusal :=
  .next (whenLegal hasInstance (acceptByte imm8) s)

/-- The effect of `FINAL` once its phase check has passed (44_driver_commands R108). -/
def finishMessage (s : State) : State :=
  let t := ensureReady s
  if 0#3 < t.bcnt then completeBlock (padBlock t) else t

/-- `FINAL` (44_driver_commands R108). -/
def execFinal (s : State) : Host.Outcome State Fault Refusal :=
  .next (whenLegal hasInstance finishMessage s)

end Sys2Proof.Machine
end

