-- ==== Sys2Proof/Machine/KeyCommands.lean ====
section
/-! DEFINITION. The meanings of the key commands `KEYB`, `INIT` and `KSCHED` (41_key_schedule R75 to R77). -/

namespace Sys2Proof.Machine

/-- `KEYB imm8` (41_key_schedule R75). -/
def execKeyb (imm8 : Byte) (s : State) : Host.Outcome State Fault Refusal :=
  .next (whenLegal acceptsKey (captureKeyByte imm8) s)

/-- The effect of `INIT d` in `Idle`: the key-length check, then the construction (41_key_schedule R76). -/
def construct (d : Direction) (s : State) : State :=
  if s.kcnt < 8#4 then raise .keyShort s
  else { s with dir := d, phase := .uninitialized }

/-- `INIT d` (41_key_schedule R76). -/
def execInit (d : Direction) (s : State) : Host.Outcome State Fault Refusal :=
  .next (whenLegal acceptsKey (construct d) s)

/-- `KSCHED` (41_key_schedule R77): exactly `EnsureSchedule` after the phase check (R78). -/
def execKsched (s : State) : Host.Outcome State Fault Refusal :=
  .next (whenLegal hasInstance ensureSchedule s)

end Sys2Proof.Machine
end

