-- ==== Sys2Proof/Machine/SystemCommands.lean ====
section
/-! DEFINITION. The meaning of `RESET`, the only command whose purpose is control (44_driver_commands R109, R116). -/

namespace Sys2Proof.Machine

/-- `RESET`, legal in every phase (44_driver_commands R109): exactly the effect of the reset input
(70_reset_and_hazards R131). -/
def execReset (s : State) : Host.Outcome State Fault Refusal :=
  .next (resetEngine s)

end Sys2Proof.Machine
end

