-- ==== Sys2Proof/Machine/Dispatch.lean ====
section
/-! DEFINITION. The meaning of every command (spec/opcode_table.json), one arm each. -/

namespace Sys2Proof.Machine

def exec (i : Instr) (s : State) : Host.Outcome State Fault Refusal :=
  match i with
  | .reset => Sys2Proof.Machine.execReset s
  | .keyb imm8 => Sys2Proof.Machine.execKeyb imm8 s
  | .init d => Sys2Proof.Machine.execInit d s
  | .ksched => Sys2Proof.Machine.execKsched s
  | .datab imm8 => Sys2Proof.Machine.execDatab imm8 s
  | .final => Sys2Proof.Machine.execFinal s

end Sys2Proof.Machine
end

