-- ==== Sys2Proof/Machine/Engine.lean ====
section
/-! DEFINITION. What the engine does with one host action: the step function of 44_driver_commands R105 for a
command word, and the reset input (70_reset_and_hazards R130). -/

namespace Sys2Proof.Machine

/-- The step function for a command word: first the fault phase, then the encoding, then the command's own rule
(44_driver_commands R105). -/
def stepWord (w : CmdWord) (s : State) : Host.Outcome State Fault Refusal :=
  if s.phase = .fault then
    if w = 0x1000#16 then exec .reset s else .next s
  else
    match decode w with
    | .illegal _ => .next (raise .illegalCmd s)
    | .command i => exec i s

/-- The effect of one host action (20_memory R43). -/
def perform (a : HostAction) (s : State) : Host.Outcome State Fault Refusal :=
  match a with
  | .command w => stepWord w s
  | .assertReset => .next (resetEngine s)

/-- The host presents `w` next: the place where the engine takes its next command from (20_memory R31;
log entry 1). -/
def present (w : CmdWord) (s : State) : State :=
  { s with inputs := .command w :: s.inputs }

/-- One step: the engine takes the next host action and performs it. With none to take it is idle, with all state
retained (20_memory R31, 60_exceptions R127, 70_reset_and_hazards R130). -/
def advance (s : State) : Host.Outcome State Fault Refusal :=
  match s.inputs with
  | [] => .next s
  | a :: rest => perform a { s with inputs := rest }

end Sys2Proof.Machine
end

