-- ==== Sys2Proof/Machine/Step.lean ====
section
/-! DEFINITION. One step of the machine (00_scope R12), and the host's way to have the next step run a word. -/

namespace Sys2Proof.Machine

/-- One step (00_scope R12, 44_driver_commands R105). -/
def step (s : State) : Host.Outcome State Fault Refusal :=
  advance s

/-- `s` with the table's word `w` of `nbits` bits presented on the command port ahead of everything else, so that
the very next step takes it (log entry 1). -/
def State.withFetchWord (s : State) (nbits w : Nat) : State :=
  present (BitVec.ofNat 16 (w % 2 ^ nbits)) s

end Sys2Proof.Machine
end

