-- ==== Sys2Proof/Machine/Message.lean ====
section
/-! DEFINITION. The message level: the function `PROCESS` (44_driver_commands R110) and the two macros that carry
it out as command words (30_encoding R52). -/

namespace Sys2Proof.Machine

/-- `p`, the number of pad bytes of a message of length `n`, 0 to 7 (44_driver_commands R110). -/
def padCount (n : Nat) : Nat := (8 - n % 8) % 8

/-- `m`, the padded message (44_driver_commands R110). -/
def padded (msg : List Byte) : List Byte :=
  msg ++ List.replicate (padCount msg.length) padByte

/-- The output bytes of block `j` of a padded message (44_driver_commands R110). -/
def processBlock (rk : RoundKeys) (d : Direction) (m : List Byte) (j : Nat) : List Byte :=
  blockBytes (block (blockOfBytes fun k => m.getD (8 * j + k) 0) rk d)

/-- The output of a padded message: its blocks' outputs in input order (44_driver_commands R110). -/
def processPadded (rk : RoundKeys) (d : Direction) (m : List Byte) : List Byte :=
  (List.range (m.length / 8)).flatMap (processBlock rk d m)

/-- `BITS(key[0], ..., key[7])` (44_driver_commands R110). -/
def keyVector (key : List Byte) : Block :=
  blockOfBytes fun k => key.getD k 0

/-- `PROCESS(key, d, msg)`; not defined for a key shorter than 8 bytes (44_driver_commands R110;
DEDUCED, log entry 18). -/
def process (key : List Byte) (d : Direction) (msg : List Byte) : Option (List Byte) :=
  if key.length < 8 then none else some (processPadded (ks (keyVector key)) d (padded msg))

/-- The macro `NEW <key bytes>, <direction>` (30_encoding R52). -/
def newWords (key : List Byte) (d : Direction) : List CmdWord :=
  key.map (fun b => encode (.keyb b)) ++ [encode (.init d)]

/-- The macro `PROCESS <message bytes>` (30_encoding R52). -/
def processWords (msg : List Byte) : List CmdWord :=
  msg.map (fun b => encode (.datab b)) ++ [encode .final]

/-- The host presents exactly the words `ws`, in order, and nothing else (20_memory R31). -/
def presentWords (ws : List CmdWord) (s : State) : State :=
  { s with inputs := ws.map .command }

end Sys2Proof.Machine
end

