-- ==== Sys2Proof/Machine/Assembler.lean ====
section
/-! DEFINITION. The assembler syntax of command lists (30_encoding R51) and its two macros (R52), as abstract lines: how a
written list becomes the words presented on the command port. -/

namespace Sys2Proof.Machine

/-- A written byte: a number, or a quoted single character (30_encoding R51). -/
inductive AsmByte where
  | number (b : Byte)
  | quoted (c : Char)
deriving DecidableEq, Repr

/-- A line of a command list (30_encoding R51), or one of the two macros (R52). `ENC` and `0` write the direction
`encrypt`, `DEC` and `1` the direction `decrypt`. -/
inductive AsmLine where
  | reset
  | keyb (b : AsmByte)
  | init (d : Direction)
  | ksched
  | datab (b : AsmByte)
  | final
  | new (bytes : List AsmByte) (d : Direction)
  | process (bytes : List AsmByte)
deriving DecidableEq, Repr

/-- A quoted character stands for its 8-bit code and must be a single-byte character; other text is out of contract
(30_encoding R51). Which character has which code is said for no character set: DESIGN CHOICE, the Unicode code point where
it is below 256, which is ASCII up to 127 and Latin-1 from 128 to 255 (log entry 20). -/
def AsmByte.value : AsmByte → Option Byte
  | .number b => some b
  | .quoted c => if c.toNat < 256 then some (BitVec.ofNat 8 c.toNat) else none

/-- The words of a line (30_encoding R48, R51, R52). -/
def assembleLine : AsmLine → Option (List CmdWord)
  | .reset => some [encode .reset]
  | .keyb b => b.value.map fun v => [encode (.keyb v)]
  | .init d => some [encode (.init d)]
  | .ksched => some [encode .ksched]
  | .datab b => b.value.map fun v => [encode (.datab v)]
  | .final => some [encode .final]
  | .new bytes d => (bytes.mapM AsmByte.value).map fun vs => newWords vs d
  | .process bytes => (bytes.mapM AsmByte.value).map processWords

/-- The words of a command list, in order. -/
def assemble : List AsmLine → Option (List CmdWord)
  | [] => some []
  | line :: more =>
    match assembleLine line, assemble more with
    | some ws, some rest => some (ws ++ rest)
    | _, _ => none

end Sys2Proof.Machine
end

