-- ==== Sys2Proof/Machine/Micro.lean ====
section
/-! DEFINITION. The controller as hardware sequences it, on the working registers of the state (10_state R22): the
micro-steps of the block transform (43_block_datapath R100) and of the key schedule (41_key_schedule R71).
The micro-steps lie inside one host-visible step and are not observable; the meanings of the commands use the pure
functions `ks` and `block`, as R22 and R100 allow, and statements relate the two. -/

namespace Sys2Proof.Machine

/-- `load`: `v <- PERMUTE(IBUF, IP); L <- v[0..31]; R <- v[32..63]; RND <- 0` (43_block_datapath R100). -/
def microLoad (s : State) : State :=
  { s with
    l := slice (permute (joinSlots s.ibuf) tableIP) 0 32
    r := slice (permute (joinSlots s.ibuf) tableIP) 32 32
    rnd := 0#4 }

/-- `round`: `(L, R) <- (R, XOR(L, F(R, k)))`, and `RND` counts on while it is below 15 (43_block_datapath R100). -/
def microRound (s : State) : State :=
  { s with
    l := s.r
    r := xorVec s.l (roundF s.r (orderedKey s.rk s.dir s.rnd.toNat))
    rnd := if s.rnd < 15#4 then s.rnd + 1#4 else s.rnd }

/-- `n` rounds after the load. -/
def microRounds (s : State) : Nat → State
  | 0 => microLoad s
  | n + 1 => microRound (microRounds s n)

/-- `store`: `o <- PERMUTE(R || L, FP)`, and its eight bytes are emitted (43_block_datapath R100). -/
def microStore (s : State) : State :=
  emitBlock (permute (s.r ++ s.l) tableFP) s

/-- The 18 micro-steps of one block (43_block_datapath R100). -/
def microBlock (s : State) : State :=
  microStore (microRounds s 16)

/-- The compressed key goes into `C` and `D` (41_key_schedule R71). -/
def scheduleLoad (s : State) : State :=
  { s with
    c := slice (permute (joinSlots s.key) tablePC1) 0 28
    d := slice (permute (joinSlots s.key) tablePC1) 28 28 }

/-- Round `n + 1` of the schedule: rotate `C` and `D`, then compress them into `RK[n]` (41_key_schedule R71). -/
def scheduleRound (n : Nat) (s : State) : State :=
  { s with
    c := rotl28 s.c (tableSHIFT.getD n 0)
    d := rotl28 s.d (tableSHIFT.getD n 0)
    rk := s.rk.setIfInBounds n
      (permute (rotl28 s.c (tableSHIFT.getD n 0) ++ rotl28 s.d (tableSHIFT.getD n 0)) tablePC2) }

/-- `n` rounds of the schedule after its load; sixteen make the whole schedule (41_key_schedule R71). -/
def scheduleRounds (s : State) : Nat → State
  | 0 => scheduleLoad s
  | n + 1 => scheduleRound n (scheduleRounds s n)

end Sys2Proof.Machine
end

