-- ==== Sys2Proof/Machine/System.lean ====
section
/-! DEFINITION. A system of `NINST` engines (00_scope R6, 60_exceptions R128). Each engine has its own complete state,
its own ports and its own reset; nothing is shared but the constant tables. -/

namespace Sys2Proof.Machine

/-- The states of the engines of a system, one each. -/
abbrev Engines := List State

/-- An engine is in the reset state of 10_state R29, whatever it has emitted before. The registers that hold no value
there are left open. -/
def InResetState (s : State) : Prop :=
  s.phase = .idle ∧ s.dir = .encrypt ∧ s.ecode = .noFault ∧ s.kcnt = 0#4 ∧ s.bcnt = 0#3

/-- An engine is in the reset state with no output yet: what a run starts from (10_state R23, R29). -/
def AtReset (s : State) : Prop :=
  InResetState s ∧ s.out = []

/-- A system at the start of a run: `NINST` engines, each at reset (60_exceptions R128). -/
def SystemAtReset (p : Config.Params) (sys : Engines) : Prop :=
  sys.length = p.ninst ∧ ∀ s ∈ sys, AtReset s

/-- The state of an engine after one step of its own. -/
def stepOf (s : State) : State :=
  match step s with
  | .next t => t
  | .fault _ => s
  | .refused _ => s

/-- `n` steps of one engine running alone. -/
def stepsOf (s : State) : Nat → State
  | 0 => s
  | n + 1 => stepOf (stepsOf s n)

/-- The system after engine `k` has taken one step (20_memory R42). -/
def stepEngine (k : Nat) (sys : Engines) : Engines :=
  sys.modify k stepOf

/-- The system after the engines have stepped in the order `order` lists (20_memory R42). -/
def interleave (order : List Nat) (sys : Engines) : Engines :=
  order.foldl (fun t k => stepEngine k t) sys

end Sys2Proof.Machine
end

