-- ==== Sys2Proof/Safety.lean ====
section
/-! DEFINITION. What counts as a good state and a good run, in the terms the statements use. -/

namespace Sys2Proof.Machine

/-- The invariants of 10_state R26 that speak of one state. Items 6 and 8 and the second half of item 3 speak of what
was written earlier; `AgreeWhereWritten` and statements about steps carry them. -/
structure EngineInv (s : State) : Prop where
  /-- Item 1: `KCNT` is in 0 to 8. -/
  kcnt_le : s.kcnt ≤ 8#4
  /-- Item 2: `ECODE` is non-zero exactly in `Fault`. -/
  ecode_iff : s.ecode ≠ .noFault ↔ s.phase = .fault
  /-- Item 3: an instance has a complete key. -/
  key_complete : hasInstance s.phase = true → s.kcnt = 8#4
  /-- Item 4: a generated schedule is the schedule of `KEY`. -/
  schedule : s.phase = .keysScheduled ∨ s.phase = .ready → s.rk = ks (joinSlots s.key)
  /-- Item 5: message bytes wait only in `Ready`. -/
  no_waiting : s.phase = .idle ∨ s.phase = .uninitialized ∨ s.phase = .keysScheduled → s.bcnt = 0#3
  /-- Item 7: output leaves in whole blocks. -/
  out_blocks : 8 ∣ s.out.length

/-- Two states of one engine that differ at most where the spec says no value is held: the slots of `KEY` and `IBUF`
above their counts, `RK` before the schedule has been generated, the working registers (10_state R29,
93_implementation_defined V3, V4). What the host can see, `STATUS` and `OUT`, is the same in both. -/
structure AgreeWhereWritten (s t : State) : Prop where
  kcnt_eq : s.kcnt = t.kcnt
  phase_eq : s.phase = t.phase
  dir_eq : s.dir = t.dir
  ecode_eq : s.ecode = t.ecode
  bcnt_eq : s.bcnt = t.bcnt
  out_eq : s.out = t.out
  inputs_eq : s.inputs = t.inputs
  key_eq : ∀ k, k < s.kcnt.toNat → s.key[k]? = t.key[k]?
  ibuf_eq : ∀ k, k < s.bcnt.toNat → s.ibuf[k]? = t.ibuf[k]?
  rk_eq : s.phase = .keysScheduled ∨ s.phase = .ready → s.rk = t.rk

/-- `s` with the working registers `C`, `D`, `L`, `R` and `RND`, whose content after a step is unspecified (10_state R22), and
the model's counter of free values, as they are in `t`. -/
def withWorkingOf (t s : State) : State :=
  { s with c := t.c, d := t.d, l := t.l, r := t.r, rnd := t.rnd, draws := t.draws }

/-- The phase changes a step can make (10_state R16): an unchanged phase, or one of the transitions the rule
lists; there is no other. -/
def phaseChangeListed (before after : Phase) : Prop :=
  after = before
    ∨ after = .idle
    ∨ (after = .fault ∧ before ≠ .fault)
    ∨ (before = .idle ∧ after = .uninitialized)
    ∨ (before = .uninitialized ∧ after = .keysScheduled)
    ∨ (before = .uninitialized ∧ after = .ready)
    ∨ (before = .keysScheduled ∧ after = .ready)

/-- The state table of 44_driver_commands R104: the phase after command `i` in a phase, where `keyComplete` says
whether `KCNT = 8`. -/
def tablePhaseAfter (keyComplete : Bool) : Phase → Instr → Phase
  | _, .reset => .idle
  | .idle, .keyb _ => .idle
  | .idle, .init _ => if keyComplete then .uninitialized else .fault
  | .idle, .ksched => .fault
  | .idle, .datab _ => .fault
  | .idle, .final => .fault
  | .uninitialized, .keyb _ => .fault
  | .uninitialized, .init _ => .fault
  | .uninitialized, .ksched => .keysScheduled
  | .uninitialized, .datab _ => .ready
  | .uninitialized, .final => .ready
  | .keysScheduled, .keyb _ => .fault
  | .keysScheduled, .init _ => .fault
  | .keysScheduled, .ksched => .keysScheduled
  | .keysScheduled, .datab _ => .ready
  | .keysScheduled, .final => .ready
  | .ready, .keyb _ => .fault
  | .ready, .init _ => .fault
  | .ready, .ksched => .ready
  | .ready, .datab _ => .ready
  | .ready, .final => .ready
  | .fault, .keyb _ => .fault
  | .fault, .init _ => .fault
  | .fault, .ksched => .fault
  | .fault, .datab _ => .fault
  | .fault, .final => .fault

/-- The fault each failing cell of the state table raises (44_driver_commands R104): `KeyShort` for `INIT` in `Idle`,
`BadSequence` in every other such cell. -/
def tableFault : Phase → Instr → ECode
  | .idle, .init _ => .keyShort
  | _, _ => .badSequence

/-- The host action is a reset: the reset input, or the word `0x1000` (60_exceptions R125). -/
def isReset (a : HostAction) : Prop :=
  a = .assertReset ∨ a = .command 0x1000#16

/-- A run that ends in `s` is successful (70_reset_and_hazards R138). -/
def SuccessfulEnd (s : State) : Prop :=
  s.phase ≠ .fault ∧ s.bcnt = 0#3

end Sys2Proof.Machine
end

