-- ==== Sys2Proof/Certificates/Slice0/Obligations.lean ====
section
/-! DEFINITION. The statements about the engine, each from the numbered rules its docstring names.
Where a register holds no value afterwards (10_state R20, R22, R29), a statement leaves it as whatever the next state
`t` has: it is written as `t`'s own field, so that nothing is said about a free value; `withWorkingOf t` does so for the working
registers. A word is taken from the command port when it is the head of `inputs` (log entry 1). -/

open Sys2Proof Sys2Proof.Machine

/-! ### The encoding -/

/-- 30_encoding R48 to R50 and the words of 95_test_vectors section 7.1, written out: a sanity statement. -/
def Obligations.SampleWordsDecode : Prop :=
  decode 0x1000 = .command .reset
    ∧ decode 0x2020 = .command (.keyb 0x20) ∧ decode 0x20FF = .command (.keyb 0xFF)
    ∧ decode 0x3000 = .command (.init .encrypt) ∧ decode 0x3001 = .command (.init .decrypt)
    ∧ decode 0x4000 = .command .ksched
    ∧ decode 0x5000 = .command (.datab 0x00) ∧ decode 0x5048 = .command (.datab 0x48)
    ∧ decode 0x6000 = .command .final
    ∧ decode 0x0000 = .illegal .reservedOpcode ∧ decode 0x7000 = .illegal .reservedOpcode
    ∧ decode 0xF000 = .illegal .reservedOpcode
    ∧ decode 0x0FFF = .illegal .zeroField ∧ decode 0x2F13 = .illegal .zeroField
    ∧ decode 0xFFFF = .illegal .zeroField
    ∧ decode 0x1001 = .illegal .unusedOperand ∧ decode 0x4001 = .illegal .unusedOperand
    ∧ decode 0x6020 = .illegal .unusedOperand
    ∧ decode 0x3002 = .illegal .initOperand ∧ decode 0x30FF = .illegal .initOperand

/-- 30_encoding R48, R50: every command, with its operand at every value, is read back from its word. -/
def Obligations.DecodeInvertsEncode : Prop :=
  ∀ i : Instr, i.WellFormed = true ∧ decode (encode i) = .command i

/-- 30_encoding R45, R48: a legal word is the encoding of the command it decodes to, so each legal word has exactly one
meaning and each command exactly one word. -/
def Obligations.EncodeInvertsDecode : Prop :=
  ∀ (w : CmdWord) (i : Instr), decode w = .command i → encode i = w

/-- 30_encoding R48: the rows of the map; a word is the command of a row exactly when `(w AND mask) = match`; the rows do
not overlap; of the 65,536 words exactly 517 are legal. -/
def Obligations.OpcodeMapIsExact : Prop :=
  opcodeMap = [⟨"RESET", 0xFFFF, 0x1000⟩, ⟨"KEYB", 0xFF00, 0x2000⟩, ⟨"INIT", 0xFFFE, 0x3000⟩, ⟨"KSCHED", 0xFFFF, 0x4000⟩,
      ⟨"DATAB", 0xFF00, 0x5000⟩, ⟨"FINAL", 0xFFFF, 0x6000⟩]
    ∧ (∀ (w : CmdWord) (row : OpcodeRow), row ∈ opcodeMap →
    (w &&& row.mask = row.value ↔ ∃ i, decode w = .command i ∧ mnemonic i = row.name))
    ∧ (∀ (w : CmdWord) (row row' : OpcodeRow), row ∈ opcodeMap → row' ∈ opcodeMap →
      w &&& row.mask = row.value → w &&& row'.mask = row'.value → row = row')
    ∧ Nat.card { w : CmdWord // ∃ i, decode w = .command i } = 517

/-- 30_encoding R49: the illegal words are exactly the four listed groups, by number: a reserved opcode, a non-zero
`zero` field, an unused operand that is not 0, an `INIT` operand with a bit of `cmd[7:1]` set. They are the words that match
no row of the map; outside `Fault` such a word raises `IllegalCmd`, in `Fault` it is ignored. -/
def Obligations.IllegalWordsAreTheListed : Prop :=
  (∀ w : CmdWord,
    ((∃ why, decode w = .illegal why) ↔
      (w.toNat / 4096 = 0 ∨ 7 ≤ w.toNat / 4096)
        ∨ w.toNat / 256 % 16 ≠ 0
        ∨ ((w.toNat / 4096 = 1 ∨ w.toNat / 4096 = 4 ∨ w.toNat / 4096 = 6) ∧ w.toNat % 256 ≠ 0)
        ∨ (w.toNat / 4096 = 3 ∧ w.toNat % 256 / 2 ≠ 0))
      ∧ ((∃ why, decode w = .illegal why) ↔ ∀ row ∈ opcodeMap, w &&& row.mask ≠ row.value))
    ∧ ∀ (s : State) (w : CmdWord) (why : IllegalWord) (rest : List HostAction),
      s.inputs = .command w :: rest → decode w = .illegal why →
        step s = if s.phase = .fault then .next { s with inputs := rest }
          else .next { s with inputs := rest, ecode := .illegalCmd, phase := .fault }

/-- 30_encoding R51, R52: a written command list assembles to the words of its lines, a quoted character standing for its
8-bit code (its code point below 256: the model's choice, log entry 20) and a wider one refused; the two macros expand to
key bytes and `INIT`, and to message bytes and `FINAL`. The lines are abstract, their spelling as text is left out (log
entry 17). -/
def Obligations.ListsAssembleToTheirWords : Prop :=
  (∀ (line : AsmLine) (more : List AsmLine) (ws rest : List CmdWord),
      assemble [line] = some ws → assemble more = some rest → assemble (line :: more) = some (ws ++ rest))
    ∧ assemble [.reset] = some [0x1000] ∧ assemble [.ksched] = some [0x4000] ∧ assemble [.final] = some [0x6000]
    ∧ assemble [.init .encrypt] = some [0x3000] ∧ assemble [.init .decrypt] = some [0x3001]
    ∧ (∀ b : Byte, assemble [.keyb (.number b)] = some [0x2000#16 + b.zeroExtend 16]
      ∧ assemble [.datab (.number b)] = some [0x5000#16 + b.zeroExtend 16])
    ∧ (∀ c : Char, c.toNat < 256 → assemble [.keyb (.quoted c)] = assemble [.keyb (.number (BitVec.ofNat 8 c.toNat))]
      ∧ assemble [.datab (.quoted c)] = assemble [.datab (.number (BitVec.ofNat 8 c.toNat))])
    ∧ (∀ c : Char, 256 ≤ c.toNat → assemble [.keyb (.quoted c)] = none ∧ assemble [.datab (.quoted c)] = none)
    ∧ (∀ (bytes : List Byte) (d : Direction),
      assemble [.new (bytes.map .number) d] = some (bytes.map (fun b => 0x2000#16 + b.zeroExtend 16) ++
        [if d = .encrypt then 0x3000#16 else 0x3001#16]))
    ∧ (∀ bytes : List Byte,
      assemble [.process (bytes.map .number)] = some (bytes.map (fun b => 0x5000#16 + b.zeroExtend 16) ++ [0x6000#16]))
    ∧ assemble [.keyb (.number 0x13), .datab (.quoted 'H'), .init .decrypt] = some [0x2013, 0x5048, 0x3001]
    ∧ assemble [.process [.quoted 'H', .quoted 'i']] = some [0x5048, 0x5069, 0x6000]

/-! ### The bit-permutation network -/

/-- 40_permutation_network R55: `r[i] = v[T[i]]`; a bijective table is undone by the table `T'` with `T'[T[i]] = i`; all
zeros and all ones stay; the rule's example. -/
def Obligations.PermuteMovesEachBit : Prop :=
  (∀ (m n : Nat) (v : BitVec m) (t : Vector (Fin m) n) (i : Nat) (h : i < n),
      (permute v t).getMsbD i = v.getMsbD t[i])
    ∧ (∀ (n : Nat) (v : BitVec n) (t u : Vector (Fin n) n),
      (∀ (i : Nat) (h : i < n), (u[t[i]]).val = i) → permute (permute v t) u = v)
    ∧ (∀ (m n : Nat) (t : Vector (Fin m) n), permute (0#m) t = 0#n)
    ∧ (∀ (m n : Nat) (t : Vector (Fin m) n), permute (BitVec.allOnes m) t = BitVec.allOnes n)
    ∧ permute 0x0123456789ABCDEF#64 tableIP = 0xCC00CCFFF0AAF0AA#64

/-- 40_permutation_network R56: bitwise sum modulo 2, with its laws and the rule's example. -/
def Obligations.XorAddsBitsModuloTwo : Prop :=
  xorVec 0x7A15557A1555#48 0x1B02EFFC7072#48 = 0x6117BA866527#48
    ∧ ∀ (n : Nat) (a b c : BitVec n),
    (∀ i, i < n → ((xorVec a b).getMsbD i).toNat = ((a.getMsbD i).toNat + (b.getMsbD i).toNat) % 2)
      ∧ xorVec a a = 0#n ∧ xorVec a 0#n = a ∧ xorVec a b = xorVec b a
      ∧ xorVec (xorVec a b) c = xorVec a (xorVec b c) ∧ xorVec (xorVec a b) b = a

/-- 40_permutation_network R57, R58: `BITS` puts `b[7 - j]` at index `j`, `BYTE` weighs index 0 with 128, and each undoes
the other; eight bytes fill a block first byte first (20_memory R35); the rules' examples. -/
def Obligations.BytesAndVectorsConvert : Prop :=
  (∀ (b : Byte) (j : Nat), j < 8 → (bits b).getMsbD j = b.getLsbD (7 - j))
    ∧ (∀ v : BitVec 8, (byte v).toNat =
        128 * (v.getMsbD 0).toNat + 64 * (v.getMsbD 1).toNat + 32 * (v.getMsbD 2).toNat + 16 * (v.getMsbD 3).toNat
          + 8 * (v.getMsbD 4).toNat + 4 * (v.getMsbD 5).toNat + 2 * (v.getMsbD 6).toNat + (v.getMsbD 7).toNat)
    ∧ (∀ b : Byte, byte (bits b) = b) ∧ (∀ v : BitVec 8, bits (byte v) = v)
    ∧ (∀ (m : Nat → Byte) (k j : Nat), k < 8 → j < 8 →
        (blockOfBytes m).getMsbD (8 * k + j) = (m k).getLsbD (7 - j))
    ∧ bits 0x80 = 0b10000000#8 ∧ bits 0x01 = 0b00000001#8 ∧ bits 0x13 ++ bits 0x34 = 0b0001001100110100#16
    ∧ byte 0b10000101#8 = 0x85

/-- 40_permutation_network R59: rotation toward index 0 by 1 or 2 places, bit by bit and as a number; two single places
make two; equal bits are unchanged; 28 single places restore the vector; the rule's examples. -/
def Obligations.RotationIsCircular : Prop :=
  (rotl28 0xF0CCAAF 1 = 0xE19955F ∧ rotl28 0x8000000 1 = 0x0000001 ∧ rotl28 0x0000001 2 = 0x0000004)
    ∧ ∀ v : KeyHalf,
    (∀ s, s = 1 ∨ s = 2 →
      (∀ i, i < 28 → (rotl28 v s).getMsbD i = v.getMsbD ((i + s) % 28))
        ∧ (rotl28 v s).toNat = v.toNat * 2 ^ s % 2 ^ 28 + v.toNat / 2 ^ (28 - s)
        ∧ ((∀ i j, i < 28 → j < 28 → v.getMsbD i = v.getMsbD j) → rotl28 v s = v))
      ∧ rotl28 v 2 = rotl28 (rotl28 v 1) 1
      ∧ (fun u => rotl28 u 1)^[28] v = v

/-- 40_permutation_network R61, R62: the closed form of `IP`; `FP` is its inverse entry by entry, and on every vector;
the rules' checks and examples. -/
def Obligations.FinalTableInvertsInitial : Prop :=
  (∀ r c : Fin 8, (tableIP[8 * r.val + c.val]).val
      = 8 * (7 - c.val) + (#v[1, 3, 5, 7, 0, 2, 4, 6] : Vector Nat 8)[r.val])
    ∧ (∀ i : Fin 64, (tableFP[tableIP[i]]).val = i.val ∧ (tableIP[tableFP[i]]).val = i.val)
    ∧ (∀ v : Block, permute (permute v tableIP) tableFP = v ∧ permute (permute v tableFP) tableIP = v)
    ∧ (tableIP[(0 : Fin 64)], tableIP[(39 : Fin 64)], tableIP[(63 : Fin 64)]) = (57, 0, 6)
    ∧ (tableFP[(0 : Fin 64)], tableFP[(57 : Fin 64)], tableFP[(63 : Fin 64)]) = (39, 0, 24)
    ∧ permute 0x8000000000000000#64 tableIP = 0x0000000001000000#64
    ∧ permute 0x0A4CD99543423234#64 tableFP = 0x85E813540F0AB405#64

/-- 40_permutation_network R63 to R67 and 42_feistel_function R87: what the rules say of the other tables. `PC1` and `PC2`
have distinct entries and leave out the listed indices; `PC2` draws its halves from the halves; the closed form of
`E`; `P` is a bijection; the rotation amounts and their sum; every row of every S-box is a permutation of 0 to 15; the
flat form of the S-boxes says the same as the boxes; the rules' examples. -/
def Obligations.TablesHaveTheirStatedShape : Prop :=
  tablePC1.toList.Nodup
    ∧ (List.finRange 64).filter (fun i => !tablePC1.toList.contains i) = [7, 15, 23, 31, 39, 47, 55, 63]
    ∧ tablePC2.toList.Nodup
    ∧ (List.finRange 56).filter (fun i => !tablePC2.toList.contains i) = [8, 17, 21, 24, 34, 37, 42, 53]
    ∧ (∀ i : Fin 48, (tablePC2[i]).val < 28 ↔ i.val < 24)
    ∧ (∀ (g : Fin 8) (j : Fin 6), (tableE[6 * g.val + j.val]).val = (4 * g.val + 31 + j.val) % 32)
    ∧ (∀ i : Fin 32, tableE.toList.count i = if i.val % 4 = 0 ∨ i.val % 4 = 3 then 2 else 1)
    ∧ tableP.toList.Nodup
    ∧ (∀ n : Fin 16, tableSHIFT[n] = if n.val + 1 ∈ [1, 2, 9, 16] then 1 else 2)
    ∧ tableSHIFT.toList.sum = 28
    ∧ (∀ (i : Fin 8) (row : Fin 4), (tableSBOX[i][row]).toList.Nodup)
    ∧ (∀ (i : Fin 8) (b : BitVec 6), slice tableSFLAT[i] (4 * b.toNat) 4 = substitute i b)
    ∧ permute 0x133457799BBCDFF1#64 tablePC1 = 0xF0CCAAF556678F#56
    ∧ permute 0xE19955FAACCF1E#56 tablePC2 = 0x1B02EFFC7072#48
    ∧ permute 0xF0AAF0AA#32 tableE = 0x7A15557A1555#48 ∧ permute 0x5C82B597#32 tableP = 0x234AA9BB#32

/-! ### The key schedule -/

/-- 41_key_schedule R71 and the cumulative rotations of R73: bit `i` of round key `n` is one bit of the key, reached
through `PC2`, the rotation of the halves by the cumulative amount, and `PC1`. -/
def Obligations.RoundKeyBitsComeFromKeyBits : Prop :=
  ∀ (k : Block) (n : Nat) (hn : n < 16) (i : Nat) (hi : i < 48),
    let turned := (#v[1, 2, 4, 6, 8, 10, 12, 14, 15, 17, 19, 21, 23, 25, 27, 28] : Vector Nat 16)[n]
    let j := (tablePC2[i]).val
    let source := if j < 28 then (j + turned) % 28 else 28 + (j - 28 + turned) % 28
    ((ks k)[n]).getMsbD i = k.getMsbD (tablePC1.toList.getD source 0).val

/-- 41_key_schedule R72: the parity positions have no influence on the round keys, and none on any transformed block. -/
def Obligations.ParityPositionsAreUnread : Prop :=
  ∀ k k' : Block, (∀ i, i < 64 → i % 8 ≠ 7 → k.getMsbD i = k'.getMsbD i) →
    ks k = ks k' ∧ ∀ (b : Block) (d : Direction), block b (ks k) d = block b (ks k') d

/-- 41_key_schedule R73: after sixteen rounds the halves are back; halves of equal bits give sixteen equal round keys, as
for the two keys the rule names. -/
def Obligations.FullTurnAndWeakKeys : Prop :=
  (∀ k : Block, keyHalves k 16 = keyHalves k 0)
    ∧ (∀ k : Block,
      (∀ i j, i < 28 → j < 28 → (keyHalves k 0).1.getMsbD i = (keyHalves k 0).1.getMsbD j) →
      (∀ i j, i < 28 → j < 28 → (keyHalves k 0).2.getMsbD i = (keyHalves k 0).2.getMsbD j) →
      ∀ (n : Nat) (hn : n < 16), (ks k)[n] = (ks k)[0])
    ∧ (∀ (n : Nat) (hn : n < 16), (ks 0x0101010101010101)[n] = 0x000000000000)
    ∧ (∀ (n : Nat) (hn : n < 16), (ks 0xFEFEFEFEFEFEFEFE)[n] = 0xFFFFFFFFFFFF)

/-- 41_key_schedule R71 with the working registers `C` and `D` of 10_state R22: the register-level schedule leaves
`KS(KEY)` in `RK`, `C_16 = C_0` and `D_16 = D_0` in the working registers, and changes nothing else. The micro-steps are the
model's arrangement of the rule (log entry 5). -/
def Obligations.ScheduleControllerRealisesKs : Prop :=
  ∀ s : State, scheduleRounds s 16 = { s with
    rk := ks (joinSlots s.key)
    c := (keyHalves (joinSlots s.key) 0).1
    d := (keyHalves (joinSlots s.key) 0).2 }

/-! ### The round function and the block transform -/

/-- 42_feistel_function R84 to R89, bit by bit: block `q` takes the nibble `q` of `r` with its two neighbouring bits, mixed
with the key; its row and column pick a value of box `q`; `P` says which bit of which value each output bit is. The worked
example of R89 stage by stage, and its corner cases: two right halves with the same result show that `F` is no bijection. -/
def Obligations.RoundFunctionBitByBit : Prop :=
  (roundF 0xF0AAF0AA 0x1B02EFFC7072 = 0x234AA9BB ∧ roundF 0x00000000 0x000000000000 = 0xD8D8DBBC
      ∧ roundF 0xFFFFFFFF 0x000000000000 = 0x38DBF9CB
      ∧ roundF 0x00000000 0xFFFFFFFFFFFF = roundF 0xFFFFFFFF 0x000000000000
      ∧ roundF 0xFFFFFFFF 0xFFFFFFFFFFFF = roundF 0x00000000 0x000000000000
      ∧ permute 0xF0AAF0AA#32 tableE = 0x7A15557A1555#48
      ∧ xorVec 0x7A15557A1555#48 0x1B02EFFC7072#48 = 0x6117BA866527#48
      ∧ (List.finRange 8).map (fun i => (sboxRow (slice 0x6117BA866527#48 (6 * i.val) 6),
          sboxColumn (slice 0x6117BA866527#48 (6 * i.val) 6), substituteBlock 0x6117BA866527#48 i))
        = [(0, 12, 5), (1, 8, 12), (0, 15, 8), (2, 13, 2), (3, 0, 11), (2, 3, 5), (0, 10, 9), (3, 3, 7)]
      ∧ substituteAll 0x6117BA866527#48 = 0x5C82B597#32
      ∧ roundF 0x0000005A 0x000000000000 = roundF 0x00000588 0x000000000000)
    ∧ (∀ (r r' : Half) (k k' : RoundKey),
      xorVec (permute r tableE) k = xorVec (permute r' tableE) k' → roundF r k = roundF r' k')
    ∧ ∀ (r : Half) (k : RoundKey),
    let b := fun (q : Fin 8) (j : Nat) =>
      (r.getMsbD ((4 * q.val + 31 + j) % 32) != k.getMsbD (6 * q.val + j)).toNat
    ∀ (q : Fin 8) (row : Fin 4) (column : Fin 16), row.val = 2 * b q 0 + b q 5 →
      column.val = 8 * b q 1 + 4 * b q 2 + 2 * b q 3 + b q 4 →
      ∀ i : Fin 32, (tableP[i]).val / 4 = q.val →
        (roundF r k).getMsbD i.val = (tableSBOX[q][row][column]).getMsbD ((tableP[i]).val % 4)

/-- 43_block_datapath R94 to R97, bit by bit: the first halves are the permuted block's; each round moves the right half to
the left and mixes `F` of it, with the round key the direction picks, into the old left half; after round 16 the right half
goes first into the final permutation. The rules' examples. -/
def Obligations.RoundsFollowTheFormula : Prop :=
  (∀ (b : Block) (rk : RoundKeys) (d : Direction),
    (∀ j : Fin 32, (blockHalves b rk d 0).1.getMsbD j.val = b.getMsbD tableIP[j.val]
        ∧ (blockHalves b rk d 0).2.getMsbD j.val = b.getMsbD tableIP[32 + j.val])
      ∧ (∀ (i : Nat) (hi : i < 16),
        (blockHalves b rk d (i + 1)).1 = (blockHalves b rk d i).2
          ∧ ∀ j, j < 32 → (blockHalves b rk d (i + 1)).2.getMsbD j = ((blockHalves b rk d i).1.getMsbD j !=
            (roundF (blockHalves b rk d i).2 (if d = .encrypt then rk[i] else rk[15 - i])).getMsbD j))
      ∧ ∀ j : Fin 64, (block b rk d).getMsbD j.val = if (tableFP[j]).val < 32
          then (blockHalves b rk d 16).2.getMsbD tableFP[j] else (blockHalves b rk d 16).1.getMsbD (tableFP[j] - 32))
    ∧ (∀ (rk : RoundKeys) (d : Direction),
      blockHalves 0x0123456789ABCDEF rk d 0 = (0xCC00CCFF#32, 0xF0AAF0AA#32))
    ∧ feistelRound (0xCC00CCFF#32, 0xF0AAF0AA#32) 0x1B02EFFC7072#48 = (0xF0AAF0AA#32, 0xEF4A6544#32)
    ∧ permute (0x0A4CD995#32 ++ 0x43423234#32) tableFP = 0x85E813540F0AB405#64

/-- 43_block_datapath R99: decryption undoes encryption and encryption undoes decryption, for every sequence of round
keys; with sixteen equal round keys each direction undoes itself. -/
def Obligations.BlockInversion : Prop :=
  ∀ (b : Block) (rk : RoundKeys),
    block (block b rk .encrypt) rk .decrypt = b
      ∧ block (block b rk .decrypt) rk .encrypt = b
      ∧ ((∀ (n : Nat) (hn : n < 16), rk[n] = rk[0]) →
        block b rk .encrypt = block b rk .decrypt ∧ block (block b rk .encrypt) rk .encrypt = b)

/-- 95_test_vectors section 4.8: complementing key and block complements the output. -/
def Obligations.ComplementCarriesThrough : Prop :=
  ∀ (k b : Block) (d : Direction), block (~~~b) (ks (~~~k)) d = ~~~(block b (ks k) d)

/-- 43_block_datapath R100: the 18 micro-steps on `L`, `R` and `RND` emit the eight bytes of `BLOCK(IBUF, RK, DIR)` and
write nothing else but the working registers, which end with the halves of round 16 and `RND = 15` (log entry 5). -/
def Obligations.ControllerRealisesBlock : Prop :=
  ∀ s : State, microBlock s = { s with
    out := s.out ++ blockBytes (block (joinSlots s.ibuf) s.rk s.dir)
    l := (blockHalves (joinSlots s.ibuf) s.rk s.dir 16).1
    r := (blockHalves (joinSlots s.ibuf) s.rk s.dir 16).2
    rnd := 15#4 }

/-- 43_block_datapath R101, 20_memory R35: eight message bytes in their slots make up the block, the first at the lowest
indices; a block leaves as eight bytes, the byte at indices `8k .. 8k+7` as the `k`-th, and the bytes make up the block
again. The rule's example. -/
def Obligations.BlockLeavesFirstByteFirst : Prop :=
  (∀ (v : Slots) (m : Nat → Byte), (∀ (k : Nat) (hk : k < 8), v[k] = bits (m k)) →
      joinSlots v = blockOfBytes m
        ∧ ∀ k j, k < 8 → j < 8 → (joinSlots v).getMsbD (8 * k + j) = (m k).getLsbD (7 - j))
    ∧ (∀ (o : Block) (s : State),
      (blockBytes o).length = 8
        ∧ (∀ k, k < 8 → (blockBytes o)[k]? = some (BitVec.ofNat 8 (o.toNat / 256 ^ (7 - k))))
        ∧ blockOfBytes (fun k => (blockBytes o).getD k 0) = o
        ∧ emitBlock o s = { s with out := s.out ++ blockBytes o })
    ∧ process [0x13, 0x34, 0x57, 0x79, 0x9B, 0xBC, 0xDF, 0xF1] .encrypt [0x01, 0x23, 0x45, 0x67, 0x89, 0xAB, 0xCD, 0xEF]
      = some [0x85, 0xE8, 0x13, 0x54, 0x0F, 0x0A, 0xB4, 0x05]

/-! ### The commands: each in every phase -/

/-- 41_key_schedule R78, 44_driver_commands R106: the helpers both data commands call. In a phase with an instance,
`EnsureSchedule` writes the schedule of `KEY` once, from `Uninitialized` only, and `EnsureReady` then leaves `RK = KS(KEY)` and
`PHASE = Ready`; nothing else changes but the schedule's working registers and the model's counter of free values. -/
def Obligations.HelpersPrepareTheInstance : Prop :=
  ∀ s : State, EngineInv s → s.phase = .uninitialized ∨ s.phase = .keysScheduled ∨ s.phase = .ready →
    ensureSchedule s = withWorkingOf (ensureSchedule s) { s with
        rk := ks (joinSlots s.key), phase := if s.phase = .uninitialized then .keysScheduled else s.phase }
      ∧ (s.phase ≠ .uninitialized → ensureSchedule s = s)
      ∧ ensureReady s = withWorkingOf (ensureReady s) { s with rk := ks (joinSlots s.key), phase := .ready }

/-- 41_key_schedule R75, in all five phases, with the rule's example. -/
def Obligations.KeybInEveryPhase : Prop :=
  ∀ (s : State) (b : Byte),
    encode (.keyb b) = 0x2000#16 + b.zeroExtend 16
      ∧ (s.phase = .idle → s.kcnt < 8#4 →
        ∃ t, exec (.keyb b) s = .next t ∧ t = withWorkingOf t { s with key := t.key, kcnt := s.kcnt + 1#4 }
          ∧ ∀ (k : Nat) (hk : k < 8), t.key[k] = if k = s.kcnt.toNat then bits b else s.key[k])
      ∧ (s.phase = .idle → 8#4 ≤ s.kcnt → exec (.keyb b) s = .next s)
      ∧ (s.phase = .uninitialized ∨ s.phase = .keysScheduled ∨ s.phase = .ready →
        exec (.keyb b) s = .next { s with ecode := .badSequence, phase := .fault })
      ∧ (s.phase = .fault → exec (.keyb b) s = .next s)
      ∧ ∃ t, exec (.keyb 0x13) State.reset = .next t ∧ t.key[0] = 0b00010011#8 ∧ t.kcnt = 1#4 ∧ status t = 0x0040#16

/-- 41_key_schedule R76, in all five phases, with the rule's two examples. -/
def Obligations.InitInEveryPhase : Prop :=
  ∀ (s : State) (d : Direction),
    encode (.init d) = 0x3000#16 + (dirCode d).zeroExtend 16
      ∧ (s.phase = .idle → 8#4 ≤ s.kcnt →
        ∃ t, exec (.init d) s = .next t ∧ t = withWorkingOf t { s with dir := d, phase := .uninitialized })
      ∧ (s.phase = .idle → s.kcnt < 8#4 → exec (.init d) s = .next { s with ecode := .keyShort, phase := .fault })
      ∧ (s.phase = .uninitialized ∨ s.phase = .keysScheduled ∨ s.phase = .ready →
        exec (.init d) s = .next { s with ecode := .badSequence, phase := .fault })
      ∧ (s.phase = .fault → exec (.init d) s = .next s)
      ∧ (s.phase = .idle → s.dir = .encrypt → s.ecode = .noFault → s.bcnt = 0#3 →
        (s.kcnt = 8#4 → ∃ t, exec (.init .decrypt) s = .next t ∧ status t = 0x0209#16)
          ∧ (s.kcnt = 3#4 → ∃ t, exec (.init .encrypt) s = .next t ∧ status t = 0x00D4#16))

/-- 41_key_schedule R77, in all five phases, with the rule's example; and `KSCHED` is optional: the data command that follows has
the same output, round keys, phase and counter without it. -/
def Obligations.KschedInEveryPhase : Prop :=
  ∀ s : State,
    encode .ksched = 0x4000#16
      ∧ (s.phase = .uninitialized →
        ∃ t, exec .ksched s = .next t
          ∧ t = withWorkingOf t { s with rk := ks (joinSlots s.key), phase := .keysScheduled })
      ∧ (s.phase = .keysScheduled ∨ s.phase = .ready → exec .ksched s = .next s)
      ∧ (s.phase = .idle → exec .ksched s = .next { s with ecode := .badSequence, phase := .fault })
      ∧ (s.phase = .fault → exec .ksched s = .next s)
      ∧ (s.phase = .uninitialized → joinSlots s.key = 0x133457799BBCDFF1 → s.dir = .encrypt → s.ecode = .noFault →
        s.kcnt = 8#4 → s.bcnt = 0#3 →
        ∃ t, exec .ksched s = .next t ∧ t.rk[0] = 0x1B02EFFC7072#48 ∧ t.rk[15] = 0xCB3D8B0E17F5#48 ∧ status t = 0x0202#16)
      ∧ (s.phase = .uninitialized → ∀ (i : Instr) (t u v : State), (i = .final ∨ ∃ b, i = .datab b) →
        exec .ksched s = .next t → exec i s = .next u → exec i t = .next v →
        v.out = u.out ∧ v.rk = u.rk ∧ v.phase = u.phase ∧ v.bcnt = u.bcnt ∧ v.dir = u.dir ∧ v.key = u.key)

/-- 44_driver_commands R107, in all five phases, with the rule's example: the byte lands in slot `BCNT`; the eighth completes
a block, which is transformed with the byte just written and emitted in the same step. -/
def Obligations.DatabInEveryPhase : Prop :=
  ∀ (s : State) (b : Byte),
    let keys := if s.phase = .uninitialized then ks (joinSlots s.key) else s.rk
    encode (.datab b) = 0x5000#16 + b.zeroExtend 16
      ∧ (s.phase = .uninitialized ∨ s.phase = .keysScheduled ∨ s.phase = .ready → s.bcnt ≠ 7#3 →
        ∃ t, exec (.datab b) s = .next t
          ∧ t = withWorkingOf t { s with rk := keys, phase := .ready, ibuf := t.ibuf, bcnt := s.bcnt + 1#3 }
          ∧ ∀ (k : Nat) (hk : k < 8), t.ibuf[k] = if k = s.bcnt.toNat then bits b else s.ibuf[k])
      ∧ (s.phase = .uninitialized ∨ s.phase = .keysScheduled ∨ s.phase = .ready → s.bcnt = 7#3 →
        ∀ full : Slots, (∀ (k : Nat) (hk : k < 8), full[k] = if k = 7 then bits b else s.ibuf[k]) →
        ∃ t, exec (.datab b) s = .next t ∧ t = withWorkingOf t { s with
            out := s.out ++ blockBytes (block (joinSlots full) keys s.dir), rk := keys, phase := .ready, bcnt := 0#3,
            ibuf := t.ibuf })
      ∧ (s.phase = .idle → exec (.datab b) s = .next { s with ecode := .badSequence, phase := .fault })
      ∧ (s.phase = .fault → exec (.datab b) s = .next s)
      ∧ (s.phase = .ready → s.bcnt = 7#3 → s.rk = ks 0x133457799BBCDFF1 → s.dir = .encrypt →
        (∀ (k : Nat) (hk : k < 7), s.ibuf[k] = (#v[0x01, 0x23, 0x45, 0x67, 0x89, 0xAB, 0xCD] : Vector (BitVec 8) 7)[k]) →
        ∃ t, exec (.datab 0xEF) s = .next t ∧ t.bcnt = 0#3
          ∧ t.out = s.out ++ [0x85, 0xE8, 0x13, 0x54, 0x0F, 0x0A, 0xB4, 0x05])

/-- 44_driver_commands R108, in all five phases, with the rule's example: a partial block is filled with `0x20` from slot
`BCNT` on, transformed and emitted; with no byte waiting nothing is padded and nothing is emitted. -/
def Obligations.FinalInEveryPhase : Prop :=
  ∀ s : State,
    let keys := if s.phase = .uninitialized then ks (joinSlots s.key) else s.rk
    encode .final = 0x6000#16
      ∧ (s.phase = .uninitialized ∨ s.phase = .keysScheduled ∨ s.phase = .ready → s.bcnt ≠ 0#3 →
        ∀ full : Slots, (∀ (k : Nat) (hk : k < 8), full[k] = if k < s.bcnt.toNat then s.ibuf[k] else bits 0x20#8) →
        ∃ t, exec .final s = .next t ∧ t = withWorkingOf t { s with
            out := s.out ++ blockBytes (block (joinSlots full) keys s.dir), rk := keys, phase := .ready, bcnt := 0#3,
            ibuf := t.ibuf })
      ∧ (s.phase = .uninitialized ∨ s.phase = .keysScheduled ∨ s.phase = .ready → s.bcnt = 0#3 →
        ∃ t, exec .final s = .next t ∧ t = withWorkingOf t { s with rk := keys, phase := .ready })
      ∧ (s.phase = .idle → exec .final s = .next { s with ecode := .badSequence, phase := .fault })
      ∧ (s.phase = .fault → exec .final s = .next s)
      ∧ (s.phase = .ready → s.bcnt = 2#3 → s.rk = ks 0x38627974656B6579 → s.dir = .encrypt →
        s.ibuf[0] = 0x48 → s.ibuf[1] = 0x69 →
        ∃ t, exec .final s = .next t ∧ t.bcnt = 0#3
          ∧ t.out = s.out ++ [0xD3, 0xB3, 0x64, 0xBB, 0x30, 0xC0, 0x04, 0x9B])

/-- 44_driver_commands R109, 10_state R29, in every phase: the control fields are cleared, `STATUS` reads 0, every byte already
emitted stays, and nothing is emitted. The registers that then hold no value are left open. No other command has an effect in
`Fault`, and none changes the key or the direction of an instance. -/
def Obligations.ResetInEveryPhase : Prop :=
  encode .reset = 0x1000#16
    ∧ ∀ s : State, ∃ t, exec .reset s = .next t
      ∧ t.phase = .idle ∧ t.dir = .encrypt ∧ t.ecode = .noFault ∧ t.kcnt = 0#4 ∧ t.bcnt = 0#3 ∧ status t = 0x0000#16
      ∧ t.out = s.out ∧ t.inputs = s.inputs
      ∧ ∀ (i : Instr) (u : State), i ≠ .reset → exec i s = .next u →
        (s.phase = .fault → u = s)
          ∧ (s.phase = .uninitialized ∨ s.phase = .keysScheduled ∨ s.phase = .ready → u.key = s.key ∧ u.dir = s.dir)

/-- 44_driver_commands R104: the phase after every command in every phase is the one the table gives, and a step that the
table sends from outside `Fault` into it records the table's fault; an illegal word leads into `Fault` with `IllegalCmd`,
and in `Fault` it changes nothing but the port it is taken from. -/
def Obligations.StateTableIsExact : Prop :=
  (∀ (s t : State) (i : Instr), s.kcnt ≤ 8#4 → exec i s = .next t →
    t.phase = tablePhaseAfter (s.kcnt == 8#4) s.phase i
      ∧ (s.phase ≠ .fault → t.phase = .fault → t.ecode = tableFault s.phase i))
    ∧ ∀ (s t : State) (w : CmdWord) (why : IllegalWord) (rest : List HostAction),
      s.inputs = .command w :: rest → decode w = .illegal why → step s = .next t →
        t.phase = .fault
          ∧ (s.phase = .fault → t = { s with inputs := rest })
          ∧ (s.phase ≠ .fault → t = { s with inputs := rest, ecode := .illegalCmd, phase := .fault })

/-- 10_state R22 says that the working registers are written only by the schedule and the block transform, and leaves their
content after a step open. That they are otherwise kept is the model's choice (log entry 6). -/
def Obligations.WorkingRegistersAreKeptBetweenUses : Prop :=
  ∀ (s t : State) (i : Instr), i ≠ .reset → exec i s = .next t →
    (s.phase ≠ .uninitialized → t.c = s.c ∧ t.d = s.d)
      ∧ (t.out = s.out → t.l = s.l ∧ t.r = s.r ∧ t.rnd = s.rnd)

/-! ### The step -/

/-- 44_driver_commands R105: the step takes the word from the port. In `Fault` the word `0x1000` is `RESET` and any other
changes nothing; outside `Fault` an illegal word raises `IllegalCmd`; a word that decodes to a command is that command's own
rule, in every phase. Every step has an outcome. -/
def Obligations.StepRunsTheDecodedCommand : Prop :=
  (∀ (s : State) (w : CmdWord) (rest : List HostAction), s.inputs = .command w :: rest →
    (∀ i, decode w = .command i → step s = exec i { s with inputs := rest })
      ∧ (s.phase = .fault → w = 0x1000#16 → step s = exec .reset { s with inputs := rest })
      ∧ (s.phase = .fault → w ≠ 0x1000#16 → step s = .next { s with inputs := rest })
      ∧ (∀ why, s.phase ≠ .fault → decode w = .illegal why →
        step s = .next { s with inputs := rest, ecode := .illegalCmd, phase := .fault }))
    ∧ ∀ s : State, ∃ t, step s = .next t

/-- 60_exceptions R117, R119: the codes of the three faults, and the cases that raise each: an illegal word; `KEYB` or `INIT`
outside `Idle`, `KSCHED`, `DATAB` or `FINAL` in `Idle`; `INIT` in `Idle` with fewer than 8 key bytes. Nothing else leads into
`Fault`, and a fault changes nothing but `ECODE` and `PHASE`. -/
def Obligations.FaultsAreRaisedExactlyWhen : Prop :=
  (ecodeCode .noFault = 0#2 ∧ ecodeCode .keyShort = 1#2 ∧ ecodeCode .illegalCmd = 2#2 ∧ ecodeCode .badSequence = 3#2)
    ∧ ∀ (s t : State) (w : CmdWord) (rest : List HostAction),
      s.inputs = .command w :: rest → s.phase ≠ .fault → s.ecode = .noFault → step s = .next t →
        (t.ecode = .illegalCmd ↔ ∃ why, decode w = .illegal why)
          ∧ (t.ecode = .badSequence ↔
            (s.phase ≠ .idle ∧ ((∃ b, decode w = .command (.keyb b)) ∨ ∃ d, decode w = .command (.init d)))
              ∨ (s.phase = .idle ∧ (decode w = .command .ksched ∨ (∃ b, decode w = .command (.datab b))
                ∨ decode w = .command .final)))
          ∧ (t.ecode = .keyShort ↔ s.phase = .idle ∧ s.kcnt < 8#4 ∧ ∃ d, decode w = .command (.init d))
          ∧ (t.phase = .fault ↔ t.ecode ≠ .noFault)
          ∧ (t.phase = .fault → t = { s with inputs := rest, ecode := t.ecode, phase := .fault })

/-- 60_exceptions R124: in `Fault` every word other than exactly `0x1000` is ignored, legal or not, and a run that ends there
is never successful. -/
def Obligations.FaultPhaseIgnoresAllButReset : Prop :=
  ∀ s : State, s.phase = .fault →
    ¬ SuccessfulEnd s
      ∧ ∀ (w : CmdWord) (rest : List HostAction),
        s.inputs = .command w :: rest → w ≠ 0x1000#16 → step s = .next { s with inputs := rest }

/-- 70_reset_and_hazards R130, R131: the reset input and the word `0x1000` have exactly the effect of `RESET`, in every
phase. -/
def Obligations.ResetInputEqualsResetCommand : Prop :=
  ∀ (s : State) (rest : List HostAction),
    s.inputs = .assertReset :: rest ∨ s.inputs = .command 0x1000#16 :: rest →
      step s = exec .reset { s with inputs := rest }

/-- 60_exceptions R127, 70_reset_and_hazards R130: with nothing presented the engine is idle, with all state retained. The
command port as a list in the state is the model's own choice (log entry 1). -/
def Obligations.IdleEngineRetainsState : Prop :=
  ∀ s : State, s.inputs = [] → step s = .next s

/-- 20_memory R31, R39: commands are taken in the order presented, one a step, none refused, delayed or reordered. The command
port as a list is the model's own choice (log entry 1). -/
def Obligations.StepTakesOneActionInOrder : Prop :=
  ∀ s t : State, step s = .next t → t.inputs = s.inputs.tail

/-- 60_exceptions R123, 00_scope R11: a step that enters `Fault` writes exactly `ECODE` and `PHASE` besides taking its word
from the port. -/
def Obligations.FaultEntryWritesTwoFields : Prop :=
  ∀ s t : State, s.phase ≠ .fault → step s = .next t → t.phase = .fault →
    t.ecode ≠ .noFault ∧ t = { s with inputs := s.inputs.tail, ecode := t.ecode, phase := .fault }

/-- 60_exceptions R125: the only exit from `Fault` is reset, the command or the input, and it gives the reset state. -/
def Obligations.OnlyResetLeavesFault : Prop :=
  ∀ s t : State, s.phase = .fault → step s = .next t → t.phase ≠ .fault →
    (t.phase = .idle ∧ t.dir = .encrypt ∧ t.ecode = .noFault ∧ t.kcnt = 0#4 ∧ t.bcnt = 0#3 ∧ t.out = s.out)
      ∧ ∃ a rest, s.inputs = a :: rest ∧ isReset a

/-- 10_state R16: no step makes a phase change the rule does not list. -/
def Obligations.OnlyListedPhaseChanges : Prop :=
  ∀ s t : State, step s = .next t → phaseChangeListed s.phase t.phase

/-- 10_state R27, the access matrix, with the working registers of R22: apart from reset, each element changes only by the
commands and in the phases the rules name. That nothing else disturbs the working registers is the model's choice (log
entry 6), and so is the command port as a list (log entry 1). -/
def Obligations.EachElementHasItsWriters : Prop :=
  ∀ (s t : State) (a : HostAction) (rest : List HostAction),
    s.inputs = a :: rest → ¬ isReset a → step s = .next t →
      (t.key ≠ s.key ∨ t.kcnt ≠ s.kcnt →
        s.phase = .idle ∧ s.kcnt < 8#4 ∧ ∃ b, a = .command (encode (.keyb b)))
      ∧ (t.dir ≠ s.dir → s.phase = .idle ∧ ∃ d, a = .command (encode (.init d)))
      ∧ (t.rk ≠ s.rk → s.phase = .uninitialized
        ∧ (a = .command (encode .ksched) ∨ (∃ b, a = .command (encode (.datab b))) ∨ a = .command (encode .final)))
      ∧ (t.ibuf ≠ s.ibuf ∨ t.bcnt ≠ s.bcnt ∨ t.out ≠ s.out → hasInstance s.phase = true
        ∧ ((∃ b, a = .command (encode (.datab b))) ∨ a = .command (encode .final)))
      ∧ (t.ecode ≠ s.ecode → s.phase ≠ .fault ∧ t.phase = .fault)
      ∧ (t.phase ≠ s.phase → t.phase = .fault
        ∨ (s.phase = .idle ∧ t.phase = .uninitialized ∧ 8#4 ≤ s.kcnt ∧ ∃ d, a = .command (encode (.init d)))
        ∨ (s.phase = .uninitialized ∧ t.phase = .keysScheduled ∧ a = .command (encode .ksched))
        ∨ ((s.phase = .uninitialized ∨ s.phase = .keysScheduled) ∧ t.phase = .ready
          ∧ ((∃ b, a = .command (encode (.datab b))) ∨ a = .command (encode .final))))
      ∧ (t.c ≠ s.c ∨ t.d ≠ s.d → s.phase = .uninitialized
        ∧ (a = .command (encode .ksched) ∨ (∃ b, a = .command (encode (.datab b))) ∨ a = .command (encode .final)))
      ∧ (t.l ≠ s.l ∨ t.r ≠ s.r ∨ t.rnd ≠ s.rnd → hasInstance s.phase = true
        ∧ ((s.bcnt = 7#3 ∧ ∃ b, a = .command (encode (.datab b))) ∨ (s.bcnt ≠ 0#3 ∧ a = .command (encode .final))))

/-- 10_state R23, 20_memory R32: output is only appended, a whole block of eight bytes in one step or nothing. -/
def Obligations.OutputGrowsByWholeBlocks : Prop :=
  ∀ s t : State, step s = .next t → t.out = s.out ∨ ∃ o : Block, t.out = s.out ++ blockBytes o

/-- 10_state R17, R19 and 41_key_schedule R74: once the schedule exists, the round keys, the key and the direction do not
change until a reset. -/
def Obligations.ScheduledInstanceIsFixed : Prop :=
  ∀ (s t : State) (a : HostAction) (rest : List HostAction),
    s.phase = .keysScheduled ∨ s.phase = .ready → s.inputs = a :: rest → ¬ isReset a → step s = .next t →
      t.rk = s.rk ∧ t.key = s.key ∧ t.dir = s.dir ∧ t.kcnt = s.kcnt

/-- 10_state R24: the fields of `STATUS`, its reserved bits, and its value as a sum, which no other element enters; the codes
of R16 to R18. -/
def Obligations.StatusShowsItsFields : Prop :=
  ((phaseCode .idle, phaseCode .uninitialized, phaseCode .keysScheduled, phaseCode .ready, phaseCode .fault)
      = (0#3, 1#3, 2#3, 3#3, 4#3) ∧ (dirCode .encrypt, dirCode .decrypt) = (0#1, 1#1))
    ∧ ∀ s : State,
    (status s).extractLsb' 0 3 = phaseCode s.phase ∧ (status s).extractLsb' 3 1 = dirCode s.dir
      ∧ (status s).extractLsb' 4 2 = ecodeCode s.ecode ∧ (status s).extractLsb' 6 4 = s.kcnt
      ∧ (status s).extractLsb' 10 3 = s.bcnt ∧ (status s).extractLsb' 13 3 = 0#3
      ∧ (status s).toNat = (phaseCode s.phase).toNat + 8 * (dirCode s.dir).toNat + 16 * (ecodeCode s.ecode).toNat
        + 64 * s.kcnt.toNat + 1024 * s.bcnt.toNat

/-! ### Reset, invariants, and what cannot be observed -/

/-- 70_reset_and_hazards R130, 10_state R29: a run starts with the control fields clear, `STATUS = 0x0000` and `OUT = []`;
60_exceptions R128: so does a system of `NINST` engines, each at its own reset. -/
def Obligations.RunStartsAtReset : Prop :=
  (AtReset State.reset ∧ status State.reset = 0x0000#16)
    ∧ ∀ p : Config.Params, SystemAtReset p (List.replicate p.ninst State.reset)

/-- 10_state R26: the invariants hold where a run starts. -/
def Obligations.InvariantsHoldAtReset : Prop :=
  EngineInv State.reset

/-- 10_state R26: every step keeps the invariants. -/
def Obligations.StepKeepsInvariants : Prop :=
  ∀ s t : State, EngineInv s → step s = .next t → EngineInv t

/-- 10_state R26, R29 and 93_implementation_defined V3: no step reads what holds no value. Two states that differ at most in
such elements stay so, whatever the host presents, and show the same `STATUS` and the same `OUT`. -/
def Obligations.UnwrittenContentsAreNeverRead : Prop :=
  ∀ s s' t t' : State, EngineInv s → AgreeWhereWritten s s' → step s = .next t → step s' = .next t' →
    AgreeWhereWritten t t' ∧ status t = status t' ∧ t.out = t'.out

/-- 70_reset_and_hazards R139: the state after any number of steps from reset, wherever a value is held, and what the run
shows are functions of the host's actions alone. -/
def Obligations.RunsDependOnHostActionsAlone : Prop :=
  ∀ (n : Nat) (s s' : State), AtReset s → AtReset s' → s.inputs = s'.inputs →
    ∃ t t', Sys2Proof.core.run n s = .next t ∧ Sys2Proof.core.run n s' = .next t'
      ∧ AgreeWhereWritten t t' ∧ status t = status t' ∧ t.out = t'.out

/-! ### Messages -/

/-- 44_driver_commands R111, R113: in an engine that holds an instance and no waiting byte, the words of `PROCESS msg` append
exactly the message's output to `OUT` and end successfully (70_reset_and_hazards R138), ready for the next message. -/
def Obligations.MessageAppendsItsOutput : Prop :=
  ∀ (s : State) (msg : List Byte),
    EngineInv s → s.phase = .uninitialized ∨ s.phase = .keysScheduled ∨ s.phase = .ready → s.bcnt = 0#3 →
      ∃ t, Sys2Proof.core.run (msg.length + 1) (presentWords (processWords msg) s) = .next t
        ∧ t.out = s.out ++ processPadded (ks (joinSlots s.key)) s.dir (padded msg)
        ∧ t.out.length = s.out.length + 8 * ((msg.length + 7) / 8)
        ∧ t.phase = .ready ∧ t.bcnt = 0#3 ∧ t.ecode = .noFault ∧ SuccessfulEnd t
        ∧ t.key = s.key ∧ t.dir = s.dir ∧ t.inputs = []

/-- 44_driver_commands R111: from an engine in the reset state, whatever it has emitted before, `NEW key, d` and then
`PROCESS msg` append exactly `PROCESS(key, d, msg)` to `OUT`, for every key of at least 8 bytes. -/
def Obligations.ConstructionThenMessage : Prop :=
  ∀ (s : State) (key msg : List Byte) (d : Direction), InResetState s → 8 ≤ key.length →
    ∃ t out, Sys2Proof.core.run (key.length + 1 + (msg.length + 1))
        (presentWords (newWords key d ++ processWords msg) s) = .next t
      ∧ process key d msg = some out ∧ t.out = s.out ++ out
      ∧ t.phase = .ready ∧ t.bcnt = 0#3 ∧ t.ecode = .noFault

/-- 44_driver_commands R111, 60_exceptions R118, R124: a key shorter than 8 bytes is refused by its `INIT`, whatever words
follow, legal or not, other than `0x1000` are ignored, and no byte is emitted. That the message-level function has no value
for such a key is read from R110 (DEDUCED, log entry 18). -/
def Obligations.ShortKeyIsRefused : Prop :=
  ∀ (s : State) (key : List Byte) (d : Direction) (ws : List CmdWord), InResetState s → key.length < 8 →
    (∀ w ∈ ws, w ≠ 0x1000#16) →
    (∃ t, Sys2Proof.core.run (key.length + 1 + ws.length) (presentWords (newWords key d ++ ws) s) = .next t
      ∧ t.out = s.out ∧ t.phase = .fault ∧ t.ecode = .keyShort ∧ t.kcnt.toNat = key.length ∧ t.inputs = [])
      ∧ ∀ msg : List Byte, process key d msg = none

/-- 44_driver_commands R111, 41_key_schedule R77: a `KSCHED` put in front of any words changes no output byte, when an instance
exists. -/
def Obligations.KschedChangesNoOutput : Prop :=
  ∀ (s : State) (ws : List CmdWord) (t t' : State),
    EngineInv s → s.phase = .uninitialized ∨ s.phase = .keysScheduled ∨ s.phase = .ready →
      Sys2Proof.core.run ws.length (presentWords ws s) = .next t →
      Sys2Proof.core.run (ws.length + 1) (presentWords (encode .ksched :: ws) s) = .next t' →
        t'.out = t.out ∧ t'.bcnt = t.bcnt ∧ t'.ecode = t.ecode ∧ t'.kcnt = t.kcnt ∧ t'.dir = t.dir

/-- 44_driver_commands R112 items 1 and 2: the output is the smallest multiple of 8 bytes that holds the input, and nothing for
nothing. -/
def Obligations.OutputLengthIsPadded : Prop :=
  ∀ (key msg out : List Byte) (d : Direction), process key d msg = some out →
    out.length = 8 * ((msg.length + 7) / 8) ∧ (msg = [] → out = [])

/-- 44_driver_commands R112 items 3 and 4: decrypting an encrypted message gives it back followed by its padding, which is
empty for a whole number of blocks. -/
def Obligations.RoundTripRestoresPaddedMessage : Prop :=
  ∀ (key msg : List Byte), 8 ≤ key.length →
    ∃ c m, process key .encrypt msg = some c ∧ process key .decrypt c = some m
      ∧ m = msg ++ List.replicate ((8 - msg.length % 8) % 8) 0x20#8
      ∧ (msg.length % 8 = 0 → m = msg)

/-- 44_driver_commands R112 item 6: only the first 8 key bytes matter. -/
def Obligations.OnlyFirstEightKeyBytesMatter : Prop :=
  ∀ (key msg : List Byte) (d : Direction), 8 ≤ key.length → process key d msg = process (key.take 8) d msg

/-- 44_driver_commands R112 item 7, 70_reset_and_hazards R135: blocks are transformed independently, so the output of a
concatenation at a block boundary is the concatenation of the outputs, and equal blocks give equal output. -/
def Obligations.BlocksAreIndependent : Prop :=
  ∀ (key msg₁ msg₂ out₁ out₂ : List Byte) (d : Direction), msg₁.length % 8 = 0 →
    process key d msg₁ = some out₁ → process key d msg₂ = some out₂ →
      process key d (msg₁ ++ msg₂) = some (out₁ ++ out₂)

/-! ### Several engines -/

/-- 20_memory R42, 60_exceptions R128: in a system of `NINST` engines, with any commands presented to each, any interleaving
of their steps leaves each engine where it would be had it run alone. -/
def Obligations.InterleavedEnginesAreIndependent : Prop :=
  ∀ (p : Config.Params) (sys : Engines) (order : List Nat), sys.length = p.ninst →
    (interleave order sys).length = p.ninst
      ∧ ∀ (k : Nat) (s : State), sys[k]? = some s →
        (interleave order sys)[k]? = some (stepsOf s (order.count k))
end

