-- ==== Sys2Proof/Laws/Bits.lean ====
section
/-! SUPPORT. What each bit-vector operator gives, bit by bit, and the inverse pairs among them. -/

namespace Sys2Proof.Machine

theorem testBit_numOfBits (f : Nat → Bool) (n k : Nat) :
    (numOfBits f n).testBit k = (decide (k < n) && f (n - 1 - k)) := by
  induction n generalizing k with
  | zero => simp [numOfBits]
  | succ n ih =>
    cases k with
    | zero => cases h : f n <;> simp [numOfBits, Nat.testBit_zero, h]
    | succ k =>
      have halve : (2 * numOfBits f n + (f n).toNat) / 2 = numOfBits f n := by
        have := Bool.toNat_le (f n)
        omega
      have idx : n + 1 - 1 - (k + 1) = n - 1 - k := by omega
      rw [numOfBits, Nat.testBit_succ, halve, ih, idx]
      simp

theorem numOfBits_lt (f : Nat → Bool) (n : Nat) : numOfBits f n < 2 ^ n := by
  induction n with
  | zero => simp [numOfBits]
  | succ n ih =>
    have := Bool.toNat_le (f n)
    rw [numOfBits, Nat.pow_succ]
    omega

@[simp] theorem getMsbD_vecOfBits (n : Nat) (f : Nat → Bool) (i : Nat) :
    (vecOfBits n f).getMsbD i = (decide (i < n) && f i) := by
  rw [BitVec.getMsbD, vecOfBits, BitVec.getLsbD_ofNat, testBit_numOfBits]
  by_cases hi : i < n
  · have h1 : n - 1 - i < n := by omega
    have h2 : n - 1 - (n - 1 - i) = i := by omega
    simp [hi, h1, h2]
  · simp [hi]

/-- Two vectors with the same elements are equal. -/
theorem vec_ext {n : Nat} {a b : BitVec n} (h : ∀ i, i < n → a.getMsbD i = b.getMsbD i) : a = b :=
  BitVec.eq_of_getMsbD_eq h

@[simp] theorem getMsbD_slice {n : Nat} (v : BitVec n) (start len i : Nat) :
    (slice v start len).getMsbD i = (decide (i < len) && v.getMsbD (start + i)) := by
  simp [slice]

@[simp] theorem getMsbD_permute {m n : Nat} (v : BitVec m) (t : Vector (Fin m) n) (i : Nat) (h : i < n) :
    (permute v t).getMsbD i = v.getMsbD t[i] := by
  simp [permute, h]

@[simp] theorem getMsbD_xorVec {n : Nat} (a b : BitVec n) (i : Nat) :
    (xorVec a b).getMsbD i = (a.getMsbD i != b.getMsbD i) := by
  by_cases h : i < n
  · simp [xorVec, h]
  · simp [xorVec, BitVec.getMsbD_of_ge _ _ (Nat.le_of_not_lt h)]

theorem xorVec_eq {n : Nat} (a b : BitVec n) : xorVec a b = a ^^^ b :=
  vec_ext fun i _ => by simp

theorem xorVec_xorVec_cancel {n : Nat} (a b : BitVec n) : xorVec (xorVec a b) b = a := by
  rw [xorVec_eq, xorVec_eq, BitVec.xor_assoc, BitVec.xor_self, BitVec.xor_zero]

@[simp] theorem getMsbD_bits (b : Byte) (j : Nat) : (bits b).getMsbD j = b.getMsbD j := by
  rw [bits, getMsbD_vecOfBits, BitVec.getMsbD]

/-- A byte is the vector of its bits, most significant first. -/
theorem bits_eq (b : Byte) : bits b = b :=
  vec_ext fun i _ => getMsbD_bits b i

/-- `BYTE` undoes the numbering of `BITS`. -/
theorem byte_eq (v : BitVec 8) : byte v = v := by
  revert v
  decide +kernel

@[simp] theorem getMsbD_rotl28 (v : KeyHalf) (s i : Nat) (h : i < 28) :
    (rotl28 v s).getMsbD i = v.getMsbD ((i + s) % 28) := by
  simp [rotl28, h]

/-- The two parts of a concatenation. -/
theorem slice_append_left {m n : Nat} (a : BitVec m) (b : BitVec n) : slice (a ++ b) 0 m = a :=
  vec_ext fun i h => by simp [h, BitVec.getMsbD_append]

theorem slice_append_right {m n : Nat} (a : BitVec m) (b : BitVec n) : slice (a ++ b) m n = b :=
  vec_ext fun i h => by simp [h, BitVec.getMsbD_append]

/-- Splitting a vector in two and joining the parts gives it back. -/
theorem append_slices {m n : Nat} (v : BitVec (m + n)) : slice v 0 m ++ slice v m n = v :=
  vec_ext fun i h => by
    rw [BitVec.getMsbD_append]
    by_cases hi : i < m
    · simp [hi, Nat.not_le.mpr hi]
    · have h1 : m ≤ i := Nat.le_of_not_lt hi
      have h2 : i - m < n := by omega
      have h3 : m + (i - m) = i := by omega
      simp [h1, h2, h3]

/-- Bits `8k .. 8k+7` of a register of byte slots are slot `k`. -/
theorem getMsbD_joinSlots (v : Slots) (i : Nat) (h : i < 64) :
    (joinSlots v).getMsbD i = v[i / 8].getMsbD (i % 8) := by
  have hd : i / 8 < 8 := by omega
  simp [joinSlots, h, Vector.getD, hd]

/-- Slot `k` of a register of byte slots, cut out of the whole. -/
theorem slice_joinSlots (v : Slots) (k : Nat) (h : k < 8) : slice (joinSlots v) (8 * k) 8 = v[k] :=
  vec_ext fun i hi => by
    have h1 : (8 * k + i) / 8 = k := by omega
    have h2 : (8 * k + i) % 8 = i := by omega
    rw [getMsbD_slice, getMsbD_joinSlots _ _ (by omega)]
    simp [hi, h1, h2]

/-- What a slot holds after a slot has been written. -/
theorem getElem_setSlot (v : Slots) (k : Nat) (x : BitVec 8) (i : Nat) (h : i < 8) :
    (setSlot v k x)[i] = if k = i then x else v[i] := by
  simp [setSlot, Vector.getElem_setIfInBounds]

end Sys2Proof.Machine
end

