-- ==== Sys2Proof/Laws/Cipher.lean ====
section
/-! SUPPORT. What the pure functions of the datapath give: permutations that undo one another, the rotated key halves, the
round keys one by one, one Feistel round undone, and the bytes of a block. -/

namespace Sys2Proof.Machine

/-- A permutation through `u` and then `t` restores the vector when each entry of `u` reads back the place `t` names. -/
theorem permute_permute_of_inverse {n : Nat} (v : BitVec n) (t u : Vector (Fin n) n)
    (h : ∀ (i : Nat) (hi : i < n), (u[t[i]]).val = i) : permute (permute v u) t = v :=
  vec_ext fun i hi => by
    rw [getMsbD_permute _ _ _ hi, getMsbD_permute _ _ _ (t[i]).isLt]
    exact congrArg v.getMsbD (h i hi)

/-- A permutation carries a complement through. -/
theorem permute_not {m n : Nat} (v : BitVec m) (t : Vector (Fin m) n) : permute (~~~v) t = ~~~(permute v t) :=
  vec_ext fun i hi => by
    rw [getMsbD_permute _ _ _ hi, BitVec.getMsbD_not, BitVec.getMsbD_not, getMsbD_permute _ _ _ hi]
    simp [hi]

/-- Rotations add up. -/
theorem rotl28_rotl28 (v : KeyHalf) (a b : Nat) : rotl28 (rotl28 v a) b = rotl28 v (a + b) :=
  vec_ext fun i hi => by
    rw [getMsbD_rotl28 _ _ _ hi, getMsbD_rotl28 _ _ _ hi, getMsbD_rotl28 _ _ _ (by omega)]
    congr 1
    omega

theorem rotl28_zero (v : KeyHalf) : rotl28 v 0 = v :=
  vec_ext fun i hi => by simp [hi, Nat.mod_eq_of_lt hi]

/-- How far the halves have been rotated after `n` rounds of the schedule. -/
def totalRotation (n : Nat) : Nat :=
  ((List.range n).map fun i => tableSHIFT.getD i 0).sum

/-- The halves after `n` rounds are the first halves, rotated once by the total (41_key_schedule R71, R73). -/
theorem keyHalves_eq_rotl28 (k : Block) (n : Nat) :
    keyHalves k n = (rotl28 (keyHalves k 0).1 (totalRotation n), rotl28 (keyHalves k 0).2 (totalRotation n)) := by
  induction n with
  | zero => simp [totalRotation, rotl28_zero]
  | succ n ih =>
    rw [show keyHalves k (n + 1) = rotateHalves n (keyHalves k n) from rfl, ih]
    simp only [rotateHalves, rotl28_rotl28, totalRotation, List.range_succ, List.map_append, List.sum_append]
    simp

/-- The entries of the round-key sequence. -/
theorem getElem_ks (k : Block) (n : Nat) (hn : n < 16) : (ks k)[n] = roundKeyOf k n := by
  interval_cases n <;> rfl

/-- A round key that is in range, read with a default. -/
theorem getD_roundKeys (rk : RoundKeys) (i : Nat) (h : i < 16) : rk.getD i 0 = rk[i] := by
  simp [Vector.getD, h]

/-- Decryption uses the round keys of encryption from the last to the first (43_block_datapath R96). -/
theorem orderedKey_decrypt (rk : RoundKeys) (i : Nat) :
    orderedKey rk .decrypt i = orderedKey rk .encrypt (15 - i) := rfl

/-- One round undone: swap the halves, run the round with the same key, and the halves are back, swapped
(43_block_datapath R99). -/
theorem feistelRound_swap (p : Half × Half) (k : RoundKey) : feistelRound (feistelRound p k).swap k = p.swap := by
  simp [feistelRound, xorVec_xorVec_cancel, Prod.swap]

/-- Joining two halves and cutting them apart again. -/
theorem slices_append (a b : Half) : (slice (a ++ b) 0 32, slice (a ++ b) 32 32) = (a, b) :=
  Prod.ext (slice_append_left _ _) (slice_append_right _ _)

/-- Byte `k` of a block read from the block's bytes. -/
theorem getElem?_blockBytes (o : Block) (k : Nat) (hk : k < 8) : (blockBytes o)[k]? = some (slice o (8 * k) 8) := by
  simp [blockBytes, hk, byte_eq]

/-- The bits of a block made of eight bytes. -/
theorem getMsbD_blockOfBytes (m : Nat → Byte) (k j : Nat) (hk : k < 8) (hj : j < 8) :
    (blockOfBytes m).getMsbD (8 * k + j) = (m k).getMsbD j := by
  rw [blockOfBytes, getMsbD_joinSlots _ _ (by omega)]
  have h1 : (8 * k + j) / 8 = k := by omega
  have h2 : (8 * k + j) % 8 = j := by omega
  simp only [h1, h2, bits_eq]
  congr 1
  interval_cases k <;> rfl

/-- A block of bytes depends on its eight bytes alone. -/
theorem blockOfBytes_congr {f g : Nat → Byte} (h : ∀ k, k < 8 → f k = g k) : blockOfBytes f = blockOfBytes g := by
  simp only [blockOfBytes, h 0 (by decide), h 1 (by decide), h 2 (by decide), h 3 (by decide), h 4 (by decide),
    h 5 (by decide), h 6 (by decide), h 7 (by decide)]

/-- Eight slots that hold a list's bytes join to the block of those bytes. -/
theorem joinSlots_eq_blockOfBytes (v : Slots) (w : List Byte) (h : ∀ (i : Nat) (hi : i < 8), v[i] = w.getD i 0) :
    joinSlots v = blockOfBytes fun k => w.getD k 0 := by
  rw [blockOfBytes]
  congr 1
  apply Vector.ext
  intro i hi
  simp only [bits_eq]
  rw [h i hi]
  interval_cases i <;> rfl

end Sys2Proof.Machine
end

