-- ==== Sys2Proof/Laws/Encoding.lean ====
section
/-! SUPPORT. The fields of a command word as numbers, and what each outcome of the decoder says about the word. -/

namespace Sys2Proof

theorem opField_toNat (w : CmdWord) : (opField w).toNat = w.toNat / 4096 := by
  have := w.isLt
  simp only [opField, BitVec.extractLsb'_toNat, Nat.shiftRight_eq_div_pow]
  omega

theorem zeroField_toNat (w : CmdWord) : (zeroField w).toNat = w.toNat / 256 % 16 := by
  simp [zeroField, BitVec.extractLsb'_toNat, Nat.shiftRight_eq_div_pow]

theorem imm8Field_toNat (w : CmdWord) : (imm8Field w).toNat = w.toNat % 256 := by
  simp [imm8Field, BitVec.extractLsb'_toNat, Nat.shiftRight_eq_div_pow]

theorem initHighField_toNat (b : Byte) : (initHighField b).toNat = b.toNat / 2 := by
  have := b.isLt
  simp only [initHighField, BitVec.extractLsb'_toNat, Nat.shiftRight_eq_div_pow]
  omega

/-- The three fields make up the word. -/
theorem word_of_fields (w : CmdWord) :
    w.toNat = 4096 * (opField w).toNat + 256 * (zeroField w).toNat + (imm8Field w).toNat := by
  rw [opField_toNat, zeroField_toNat, imm8Field_toNat]
  omega

/-- The word of an encoded byte command. -/
theorem toNat_base_add_byte (base : CmdWord) (b : Byte) (h : base.toNat ≤ 65280) :
    (base + b.zeroExtend 16).toNat = base.toNat + b.toNat := by
  have := b.isLt
  rw [BitVec.toNat_add, BitVec.toNat_setWidth]
  omega

/-- The fields of a word given as a number. -/
theorem fields_of_toNat (w : CmdWord) (o z b : Nat) (hz : z < 16) (hb : b < 256)
    (h : w.toNat = 4096 * o + 256 * z + b) :
    opField w = BitVec.ofNat 4 o ∧ zeroField w = BitVec.ofNat 4 z ∧ imm8Field w = BitVec.ofNat 8 b := by
  refine ⟨BitVec.eq_of_toNat_eq ?_, BitVec.eq_of_toNat_eq ?_, BitVec.eq_of_toNat_eq ?_⟩
  · rw [opField_toNat, BitVec.toNat_ofNat]; omega
  · rw [zeroField_toNat, BitVec.toNat_ofNat]; omega
  · rw [imm8Field_toNat, BitVec.toNat_ofNat]; omega

/-- What the decoder's answer says about the three fields of the word (30_encoding R50). -/
theorem decode_cases (w : CmdWord) :
    (zeroField w ≠ 0#4 ∧ decode w = .illegal .zeroField)
    ∨ (zeroField w = 0#4 ∧ opField w = 1#4 ∧ imm8Field w = 0#8 ∧ decode w = .command .reset)
    ∨ (zeroField w = 0#4 ∧ opField w = 2#4 ∧ decode w = .command (.keyb (imm8Field w)))
    ∨ (zeroField w = 0#4 ∧ opField w = 3#4 ∧ initHighField (imm8Field w) = 0#7
        ∧ decode w = .command (.init (directionField (imm8Field w))))
    ∨ (zeroField w = 0#4 ∧ opField w = 4#4 ∧ imm8Field w = 0#8 ∧ decode w = .command .ksched)
    ∨ (zeroField w = 0#4 ∧ opField w = 5#4 ∧ decode w = .command (.datab (imm8Field w)))
    ∨ (zeroField w = 0#4 ∧ opField w = 6#4 ∧ imm8Field w = 0#8 ∧ decode w = .command .final)
    ∨ (zeroField w = 0#4 ∧ (opField w = 1#4 ∨ opField w = 4#4 ∨ opField w = 6#4) ∧ imm8Field w ≠ 0#8
        ∧ decode w = .illegal .unusedOperand)
    ∨ (zeroField w = 0#4 ∧ opField w = 3#4 ∧ initHighField (imm8Field w) ≠ 0#7
        ∧ decode w = .illegal .initOperand)
    ∨ (zeroField w = 0#4 ∧ opField w ≠ 1#4 ∧ opField w ≠ 2#4 ∧ opField w ≠ 3#4 ∧ opField w ≠ 4#4
        ∧ opField w ≠ 5#4 ∧ opField w ≠ 6#4 ∧ decode w = .illegal .reservedOpcode) := by
  have hd : decode w = decode w := rfl
  conv at hd => rhs; simp only [decode]
  rw [hd]
  split_ifs <;> simp_all

/-- Only `0x1000` decodes to `RESET` (30_encoding R48). -/
theorem decode_eq_reset_iff (w : CmdWord) : decode w = .command .reset ↔ w = 0x1000#16 := by
  constructor
  · intro h
    have hw := word_of_fields w
    rcases decode_cases w with c | c | c | c | c | c | c | c | c | c
    case inr.inl =>
      obtain ⟨hz, ho, hi, _⟩ := c
      rw [hz, ho, hi] at hw
      exact BitVec.eq_of_toNat_eq hw
    all_goals simp_all
  · rintro rfl
    decide

end Sys2Proof
end

