-- ==== Sys2Proof/Laws/State.lean ====
section
/-! SUPPORT. What each shared update of the state does to each field, one lemma a field. No lemma says which free value
a field holds after a reset. -/

namespace Sys2Proof.Machine

@[simp] theorem raise_key (f : Cause) (s : State) : (raise f s).key = s.key := rfl
@[simp] theorem raise_kcnt (f : Cause) (s : State) : (raise f s).kcnt = s.kcnt := rfl
@[simp] theorem raise_phase (f : Cause) (s : State) : (raise f s).phase = .fault := rfl
@[simp] theorem raise_dir (f : Cause) (s : State) : (raise f s).dir = s.dir := rfl
@[simp] theorem raise_ecode (f : Cause) (s : State) : (raise f s).ecode = causeCode f := rfl
@[simp] theorem raise_rk (f : Cause) (s : State) : (raise f s).rk = s.rk := rfl
@[simp] theorem raise_ibuf (f : Cause) (s : State) : (raise f s).ibuf = s.ibuf := rfl
@[simp] theorem raise_bcnt (f : Cause) (s : State) : (raise f s).bcnt = s.bcnt := rfl
@[simp] theorem raise_c (f : Cause) (s : State) : (raise f s).c = s.c := rfl
@[simp] theorem raise_d (f : Cause) (s : State) : (raise f s).d = s.d := rfl
@[simp] theorem raise_l (f : Cause) (s : State) : (raise f s).l = s.l := rfl
@[simp] theorem raise_r (f : Cause) (s : State) : (raise f s).r = s.r := rfl
@[simp] theorem raise_rnd (f : Cause) (s : State) : (raise f s).rnd = s.rnd := rfl
@[simp] theorem raise_out (f : Cause) (s : State) : (raise f s).out = s.out := rfl
@[simp] theorem raise_inputs (f : Cause) (s : State) : (raise f s).inputs = s.inputs := rfl
@[simp] theorem raise_draws (f : Cause) (s : State) : (raise f s).draws = s.draws := rfl

@[simp] theorem resetEngine_kcnt (s : State) : (resetEngine s).kcnt = 0#4 := rfl
@[simp] theorem resetEngine_phase (s : State) : (resetEngine s).phase = .idle := rfl
@[simp] theorem resetEngine_dir (s : State) : (resetEngine s).dir = .encrypt := rfl
@[simp] theorem resetEngine_ecode (s : State) : (resetEngine s).ecode = .noFault := rfl
@[simp] theorem resetEngine_bcnt (s : State) : (resetEngine s).bcnt = 0#3 := rfl
@[simp] theorem resetEngine_out (s : State) : (resetEngine s).out = s.out := rfl
@[simp] theorem resetEngine_inputs (s : State) : (resetEngine s).inputs = s.inputs := rfl

@[simp] theorem emit_key (b : Byte) (s : State) : (emit b s).key = s.key := rfl
@[simp] theorem emit_kcnt (b : Byte) (s : State) : (emit b s).kcnt = s.kcnt := rfl
@[simp] theorem emit_phase (b : Byte) (s : State) : (emit b s).phase = s.phase := rfl
@[simp] theorem emit_dir (b : Byte) (s : State) : (emit b s).dir = s.dir := rfl
@[simp] theorem emit_ecode (b : Byte) (s : State) : (emit b s).ecode = s.ecode := rfl
@[simp] theorem emit_rk (b : Byte) (s : State) : (emit b s).rk = s.rk := rfl
@[simp] theorem emit_ibuf (b : Byte) (s : State) : (emit b s).ibuf = s.ibuf := rfl
@[simp] theorem emit_bcnt (b : Byte) (s : State) : (emit b s).bcnt = s.bcnt := rfl
@[simp] theorem emit_c (b : Byte) (s : State) : (emit b s).c = s.c := rfl
@[simp] theorem emit_d (b : Byte) (s : State) : (emit b s).d = s.d := rfl
@[simp] theorem emit_l (b : Byte) (s : State) : (emit b s).l = s.l := rfl
@[simp] theorem emit_r (b : Byte) (s : State) : (emit b s).r = s.r := rfl
@[simp] theorem emit_rnd (b : Byte) (s : State) : (emit b s).rnd = s.rnd := rfl
@[simp] theorem emit_out (b : Byte) (s : State) : (emit b s).out = s.out ++ [b] := rfl
@[simp] theorem emit_inputs (b : Byte) (s : State) : (emit b s).inputs = s.inputs := rfl
@[simp] theorem emit_draws (b : Byte) (s : State) : (emit b s).draws = s.draws := rfl

@[simp] theorem storeMessageByte_key (b : Byte) (s : State) : (storeMessageByte b s).key = s.key := rfl
@[simp] theorem storeMessageByte_kcnt (b : Byte) (s : State) : (storeMessageByte b s).kcnt = s.kcnt := rfl
@[simp] theorem storeMessageByte_phase (b : Byte) (s : State) : (storeMessageByte b s).phase = s.phase := rfl
@[simp] theorem storeMessageByte_dir (b : Byte) (s : State) : (storeMessageByte b s).dir = s.dir := rfl
@[simp] theorem storeMessageByte_ecode (b : Byte) (s : State) : (storeMessageByte b s).ecode = s.ecode := rfl
@[simp] theorem storeMessageByte_rk (b : Byte) (s : State) : (storeMessageByte b s).rk = s.rk := rfl
@[simp] theorem storeMessageByte_ibuf (b : Byte) (s : State) : (storeMessageByte b s).ibuf = setSlot s.ibuf s.bcnt.toNat (bits b) := rfl
@[simp] theorem storeMessageByte_bcnt (b : Byte) (s : State) : (storeMessageByte b s).bcnt = s.bcnt := rfl
@[simp] theorem storeMessageByte_c (b : Byte) (s : State) : (storeMessageByte b s).c = s.c := rfl
@[simp] theorem storeMessageByte_d (b : Byte) (s : State) : (storeMessageByte b s).d = s.d := rfl
@[simp] theorem storeMessageByte_l (b : Byte) (s : State) : (storeMessageByte b s).l = s.l := rfl
@[simp] theorem storeMessageByte_r (b : Byte) (s : State) : (storeMessageByte b s).r = s.r := rfl
@[simp] theorem storeMessageByte_rnd (b : Byte) (s : State) : (storeMessageByte b s).rnd = s.rnd := rfl
@[simp] theorem storeMessageByte_out (b : Byte) (s : State) : (storeMessageByte b s).out = s.out := rfl
@[simp] theorem storeMessageByte_inputs (b : Byte) (s : State) : (storeMessageByte b s).inputs = s.inputs := rfl
@[simp] theorem storeMessageByte_draws (b : Byte) (s : State) : (storeMessageByte b s).draws = s.draws := rfl

@[simp] theorem padBlock_key (s : State) : (padBlock s).key = s.key := rfl
@[simp] theorem padBlock_kcnt (s : State) : (padBlock s).kcnt = s.kcnt := rfl
@[simp] theorem padBlock_phase (s : State) : (padBlock s).phase = s.phase := rfl
@[simp] theorem padBlock_dir (s : State) : (padBlock s).dir = s.dir := rfl
@[simp] theorem padBlock_ecode (s : State) : (padBlock s).ecode = s.ecode := rfl
@[simp] theorem padBlock_rk (s : State) : (padBlock s).rk = s.rk := rfl
@[simp] theorem padBlock_ibuf (s : State) : (padBlock s).ibuf = padSlots s.ibuf s.bcnt.toNat (8 - s.bcnt.toNat) := rfl
@[simp] theorem padBlock_bcnt (s : State) : (padBlock s).bcnt = s.bcnt := rfl
@[simp] theorem padBlock_c (s : State) : (padBlock s).c = s.c := rfl
@[simp] theorem padBlock_d (s : State) : (padBlock s).d = s.d := rfl
@[simp] theorem padBlock_l (s : State) : (padBlock s).l = s.l := rfl
@[simp] theorem padBlock_r (s : State) : (padBlock s).r = s.r := rfl
@[simp] theorem padBlock_rnd (s : State) : (padBlock s).rnd = s.rnd := rfl
@[simp] theorem padBlock_out (s : State) : (padBlock s).out = s.out := rfl
@[simp] theorem padBlock_inputs (s : State) : (padBlock s).inputs = s.inputs := rfl
@[simp] theorem padBlock_draws (s : State) : (padBlock s).draws = s.draws := rfl

@[simp] theorem present_key (w : CmdWord) (s : State) : (present w s).key = s.key := rfl
@[simp] theorem present_kcnt (w : CmdWord) (s : State) : (present w s).kcnt = s.kcnt := rfl
@[simp] theorem present_phase (w : CmdWord) (s : State) : (present w s).phase = s.phase := rfl
@[simp] theorem present_dir (w : CmdWord) (s : State) : (present w s).dir = s.dir := rfl
@[simp] theorem present_ecode (w : CmdWord) (s : State) : (present w s).ecode = s.ecode := rfl
@[simp] theorem present_rk (w : CmdWord) (s : State) : (present w s).rk = s.rk := rfl
@[simp] theorem present_ibuf (w : CmdWord) (s : State) : (present w s).ibuf = s.ibuf := rfl
@[simp] theorem present_bcnt (w : CmdWord) (s : State) : (present w s).bcnt = s.bcnt := rfl
@[simp] theorem present_c (w : CmdWord) (s : State) : (present w s).c = s.c := rfl
@[simp] theorem present_d (w : CmdWord) (s : State) : (present w s).d = s.d := rfl
@[simp] theorem present_l (w : CmdWord) (s : State) : (present w s).l = s.l := rfl
@[simp] theorem present_r (w : CmdWord) (s : State) : (present w s).r = s.r := rfl
@[simp] theorem present_rnd (w : CmdWord) (s : State) : (present w s).rnd = s.rnd := rfl
@[simp] theorem present_out (w : CmdWord) (s : State) : (present w s).out = s.out := rfl
@[simp] theorem present_inputs (w : CmdWord) (s : State) : (present w s).inputs = .command w :: s.inputs := rfl
@[simp] theorem present_draws (w : CmdWord) (s : State) : (present w s).draws = s.draws := rfl

@[simp] theorem presentWords_key (ws : List CmdWord) (s : State) : (presentWords ws s).key = s.key := rfl
@[simp] theorem presentWords_kcnt (ws : List CmdWord) (s : State) : (presentWords ws s).kcnt = s.kcnt := rfl
@[simp] theorem presentWords_phase (ws : List CmdWord) (s : State) : (presentWords ws s).phase = s.phase := rfl
@[simp] theorem presentWords_dir (ws : List CmdWord) (s : State) : (presentWords ws s).dir = s.dir := rfl
@[simp] theorem presentWords_ecode (ws : List CmdWord) (s : State) : (presentWords ws s).ecode = s.ecode := rfl
@[simp] theorem presentWords_rk (ws : List CmdWord) (s : State) : (presentWords ws s).rk = s.rk := rfl
@[simp] theorem presentWords_ibuf (ws : List CmdWord) (s : State) : (presentWords ws s).ibuf = s.ibuf := rfl
@[simp] theorem presentWords_bcnt (ws : List CmdWord) (s : State) : (presentWords ws s).bcnt = s.bcnt := rfl
@[simp] theorem presentWords_c (ws : List CmdWord) (s : State) : (presentWords ws s).c = s.c := rfl
@[simp] theorem presentWords_d (ws : List CmdWord) (s : State) : (presentWords ws s).d = s.d := rfl
@[simp] theorem presentWords_l (ws : List CmdWord) (s : State) : (presentWords ws s).l = s.l := rfl
@[simp] theorem presentWords_r (ws : List CmdWord) (s : State) : (presentWords ws s).r = s.r := rfl
@[simp] theorem presentWords_rnd (ws : List CmdWord) (s : State) : (presentWords ws s).rnd = s.rnd := rfl
@[simp] theorem presentWords_out (ws : List CmdWord) (s : State) : (presentWords ws s).out = s.out := rfl
@[simp] theorem presentWords_inputs (ws : List CmdWord) (s : State) : (presentWords ws s).inputs = ws.map .command := rfl
@[simp] theorem presentWords_draws (ws : List CmdWord) (s : State) : (presentWords ws s).draws = s.draws := rfl

end Sys2Proof.Machine
end

