-- ==== Sys2Proof/Laws/Ops.lean ====
section
/-! SUPPORT. What each shared operation can do, said once: the later proofs cite these lemmas and unfold no operation. -/

namespace Sys2Proof.Machine

theorem blockBytes_length (o : Block) : (blockBytes o).length = 8 := by
  simp [blockBytes]

/-- Emitting bytes one by one appends them. -/
theorem foldl_emit (bs : List Byte) (s : State) :
    bs.foldl (fun t b => emit b t) s = { s with out := s.out ++ bs } := by
  induction bs generalizing s with
  | nil => simp
  | cons b bs ih => rw [List.foldl_cons, ih]; simp [emit]

/-- `EmitBlock` changes `OUT` alone. -/
theorem emitBlock_eq (o : Block) (s : State) : emitBlock o s = { s with out := s.out ++ blockBytes o } :=
  foldl_emit _ s

/-- All that processing a complete block does. -/
theorem completeBlock_eq (s : State) :
    completeBlock s = { s with
      out := s.out ++ blockBytes (block (joinSlots s.ibuf) s.rk s.dir)
      bcnt := 0#3
      ibuf := Config.ibufNoValue s.draws
      l := Config.lNoValue s.draws
      r := Config.rNoValue s.draws
      rnd := Config.rndNoValue s.draws
      draws := s.draws + 1 } := by
  rw [completeBlock, emitBlock_eq]

/-- `EnsureSchedule` either generates the schedule or changes nothing. -/
theorem ensureSchedule_cases (s : State) :
    (s.phase = .uninitialized ∧ ensureSchedule s = { s with
      rk := ks (joinSlots s.key)
      phase := .keysScheduled
      c := Config.cNoValue s.draws
      d := Config.dNoValue s.draws
      draws := s.draws + 1 })
    ∨ (s.phase ≠ .uninitialized ∧ ensureSchedule s = s) := by
  by_cases h : s.phase = .uninitialized <;> simp [ensureSchedule, h]

/-- The round keys a data command uses: freshly generated on the first use, else those cached. -/
def roundKeysInUse (s : State) : RoundKeys :=
  if s.phase = .uninitialized then ks (joinSlots s.key) else s.rk

/-- All that `EnsureReady` does, up to the working registers of the schedule and the counter of free values. -/
theorem ensureReady_eq (s : State) :
    ensureReady s = { s with
      phase := .ready
      rk := roundKeysInUse s
      c := (ensureReady s).c
      d := (ensureReady s).d
      draws := (ensureReady s).draws } := by
  by_cases h : s.phase = .uninitialized <;> simp [ensureReady, ensureSchedule, roundKeysInUse, h]

@[simp] theorem ensureReady_phase (s : State) : (ensureReady s).phase = .ready := rfl
@[simp] theorem ensureReady_key (s : State) : (ensureReady s).key = s.key := by rw [ensureReady_eq]
@[simp] theorem ensureReady_kcnt (s : State) : (ensureReady s).kcnt = s.kcnt := by rw [ensureReady_eq]
@[simp] theorem ensureReady_dir (s : State) : (ensureReady s).dir = s.dir := by rw [ensureReady_eq]
@[simp] theorem ensureReady_ecode (s : State) : (ensureReady s).ecode = s.ecode := by rw [ensureReady_eq]
@[simp] theorem ensureReady_rk (s : State) : (ensureReady s).rk = roundKeysInUse s := by rw [ensureReady_eq]
@[simp] theorem ensureReady_ibuf (s : State) : (ensureReady s).ibuf = s.ibuf := by rw [ensureReady_eq]
@[simp] theorem ensureReady_bcnt (s : State) : (ensureReady s).bcnt = s.bcnt := by rw [ensureReady_eq]
@[simp] theorem ensureReady_l (s : State) : (ensureReady s).l = s.l := by rw [ensureReady_eq]
@[simp] theorem ensureReady_r (s : State) : (ensureReady s).r = s.r := by rw [ensureReady_eq]
@[simp] theorem ensureReady_rnd (s : State) : (ensureReady s).rnd = s.rnd := by rw [ensureReady_eq]
@[simp] theorem ensureReady_out (s : State) : (ensureReady s).out = s.out := by rw [ensureReady_eq]
@[simp] theorem ensureReady_inputs (s : State) : (ensureReady s).inputs = s.inputs := by rw [ensureReady_eq]

@[simp] theorem completeBlock_key (s : State) : (completeBlock s).key = s.key := by rw [completeBlock_eq]
@[simp] theorem completeBlock_kcnt (s : State) : (completeBlock s).kcnt = s.kcnt := by rw [completeBlock_eq]
@[simp] theorem completeBlock_phase (s : State) : (completeBlock s).phase = s.phase := by rw [completeBlock_eq]
@[simp] theorem completeBlock_dir (s : State) : (completeBlock s).dir = s.dir := by rw [completeBlock_eq]
@[simp] theorem completeBlock_ecode (s : State) : (completeBlock s).ecode = s.ecode := by rw [completeBlock_eq]
@[simp] theorem completeBlock_rk (s : State) : (completeBlock s).rk = s.rk := by rw [completeBlock_eq]
@[simp] theorem completeBlock_bcnt (s : State) : (completeBlock s).bcnt = 0#3 := by rw [completeBlock_eq]
@[simp] theorem completeBlock_inputs (s : State) : (completeBlock s).inputs = s.inputs := by rw [completeBlock_eq]
@[simp] theorem completeBlock_out (s : State) :
    (completeBlock s).out = s.out ++ blockBytes (block (joinSlots s.ibuf) s.rk s.dir) := by
  rw [completeBlock_eq]

/-- The slots after padding: the `n` slots from `k` on hold the pad byte, the others are unchanged. -/
theorem getElem_padSlots (v : Slots) (k n i : Nat) (h : i < 8) :
    (padSlots v k n)[i] = if k ≤ i ∧ i < k + n then bits padByte else v[i] := by
  induction n generalizing v k with
  | zero => simp [padSlots, show ¬(k ≤ i ∧ i < k) by omega]
  | succ n ih =>
    rw [padSlots, ih]
    simp only [setSlot, Vector.getElem_setIfInBounds]
    split <;> split <;> (try split) <;> first | rfl | omega

/-- What the checks before a command's own effect lead to. -/
theorem whenLegal_cases (legal : Phase → Bool) (effect : State → State) (s : State) :
    (s.phase = .fault ∧ whenLegal legal effect s = s)
    ∨ (s.phase ≠ .fault ∧ legal s.phase = true ∧ whenLegal legal effect s = effect s)
    ∨ (s.phase ≠ .fault ∧ legal s.phase = false ∧ whenLegal legal effect s = raise .badSequence s) := by
  by_cases hf : s.phase = .fault
  · exact .inl ⟨hf, by simp [whenLegal, hf]⟩
  · cases hl : legal s.phase
    · exact .inr (.inr ⟨hf, rfl, by simp [whenLegal, hf, hl]⟩)
    · exact .inr (.inl ⟨hf, rfl, by simp [whenLegal, hf, hl]⟩)

theorem acceptsKey_iff (p : Phase) : acceptsKey p = true ↔ p = .idle := by
  cases p <;> simp [acceptsKey]

theorem hasInstance_iff (p : Phase) :
    hasInstance p = true ↔ p = .uninitialized ∨ p = .keysScheduled ∨ p = .ready := by
  cases p <;> simp [hasInstance]

end Sys2Proof.Machine
end

