-- ==== Sys2Proof/Laws/Step.lean ====
section
/-! SUPPORT. What one command and one step can do, said once: every case, with its conditions. -/

namespace Sys2Proof.Machine

/-- Every command answers a next state. -/
theorem exec_answers (i : Instr) (s : State) : ∃ t, exec i s = .next t := by
  cases i <;> exact ⟨_, rfl⟩

/-- The capture of a key byte, and its refusal of a ninth. -/
theorem captureKeyByte_cases (b : Byte) (s : State) :
    (s.kcnt < 8#4 ∧ captureKeyByte b s = { s with key := setSlot s.key s.kcnt.toNat (bits b), kcnt := s.kcnt + 1#4 })
    ∨ (8#4 ≤ s.kcnt ∧ captureKeyByte b s = s) := by
  by_cases h : s.kcnt < 8#4
  · exact .inl ⟨h, if_pos h⟩
  · exact .inr ⟨by simpa using h, if_neg h⟩

/-- The construction of an instance, and its refusal of a short key. -/
theorem construct_cases (d : Direction) (s : State) :
    (s.kcnt < 8#4 ∧ construct d s = raise .keyShort s)
    ∨ (8#4 ≤ s.kcnt ∧ construct d s = { s with dir := d, phase := .uninitialized }) := by
  by_cases h : s.kcnt < 8#4
  · exact .inl ⟨h, if_pos h⟩
  · exact .inr ⟨by simpa using h, if_neg h⟩

/-- A message byte either completes a block or is counted. -/
theorem acceptByte_cases (b : Byte) (s : State) :
    (s.bcnt = 7#3 ∧ acceptByte b s = completeBlock (storeMessageByte b (ensureReady s)))
    ∨ (s.bcnt ≠ 7#3 ∧ acceptByte b s =
        { storeMessageByte b (ensureReady s) with bcnt := s.bcnt + 1#3 }) := by
  by_cases h : s.bcnt = 7#3
  · exact .inl ⟨h, if_pos (by simpa using h)⟩
  · exact .inr ⟨h, (if_neg (by simpa using h)).trans (by simp)⟩

/-- The end of a message either pads and completes a block or finds none begun. -/
theorem finishMessage_cases (s : State) :
    (s.bcnt ≠ 0#3 ∧ finishMessage s = completeBlock (padBlock (ensureReady s)))
    ∨ (s.bcnt = 0#3 ∧ finishMessage s = ensureReady s) := by
  by_cases h : s.bcnt = 0#3
  · exact .inr ⟨h, if_neg (by simp [h])⟩
  · have hp : 0#3 < s.bcnt := by
      rw [BitVec.lt_def]
      have : s.bcnt.toNat ≠ 0 := fun e => h (BitVec.eq_of_toNat_eq e)
      simpa using Nat.pos_of_ne_zero this
    exact .inl ⟨h, if_pos (by simpa using hp)⟩

/-- What a command can do outside `Fault`: its own effect, or `BadSequence` where its phase does not admit it. -/
theorem exec_cases (i : Instr) (s t : State) (h : exec i s = .next t) (hf : s.phase ≠ .fault) :
    (i = .reset ∧ t = resetEngine s)
    ∨ ((i ≠ .reset ∧ ((acceptsKey s.phase = false ∧ ((∃ b, i = .keyb b) ∨ ∃ d, i = .init d))
        ∨ (hasInstance s.phase = false ∧ (i = .ksched ∨ (∃ b, i = .datab b) ∨ i = .final))))
      ∧ t = raise .badSequence s)
    ∨ (∃ b, i = .keyb b ∧ s.phase = .idle ∧ t = captureKeyByte b s)
    ∨ (∃ d, i = .init d ∧ s.phase = .idle ∧ t = construct d s)
    ∨ (i = .ksched ∧ hasInstance s.phase = true ∧ t = ensureSchedule s)
    ∨ (∃ b, i = .datab b ∧ hasInstance s.phase = true ∧ t = acceptByte b s)
    ∨ (i = .final ∧ hasInstance s.phase = true ∧ t = finishMessage s) := by
  have inj : ∀ u, exec i s = .next u → t = u := fun u hu => by
    rw [h] at hu
    exact Host.Outcome.next.inj hu
  cases i with
  | reset => exact .inl ⟨rfl, inj _ rfl⟩
  | keyb b =>
    have := inj _ rfl
    rcases whenLegal_cases acceptsKey (captureKeyByte b) s with ⟨c, _⟩ | ⟨_, l, e⟩ | ⟨_, n, e⟩
    · exact absurd c hf
    · simp [this, e, (acceptsKey_iff _).mp l]
    · simp [this, e, n]
  | init d =>
    have := inj _ rfl
    rcases whenLegal_cases acceptsKey (construct d) s with ⟨c, _⟩ | ⟨_, l, e⟩ | ⟨_, n, e⟩
    · exact absurd c hf
    · simp [this, e, (acceptsKey_iff _).mp l]
    · simp [this, e, n]
  | ksched =>
    have := inj _ rfl
    rcases whenLegal_cases hasInstance ensureSchedule s with ⟨c, _⟩ | ⟨_, l, e⟩ | ⟨_, n, e⟩
    · exact absurd c hf
    · simp [this, e, l]
    · simp [this, e, n]
  | datab b =>
    have := inj _ rfl
    rcases whenLegal_cases hasInstance (acceptByte b) s with ⟨c, _⟩ | ⟨_, l, e⟩ | ⟨_, n, e⟩
    · exact absurd c hf
    · simp [this, e, l]
    · simp [this, e, n]
  | final =>
    have := inj _ rfl
    rcases whenLegal_cases hasInstance finishMessage s with ⟨c, _⟩ | ⟨_, l, e⟩ | ⟨_, n, e⟩
    · exact absurd c hf
    · simp [this, e, l]
    · simp [this, e, n]

/-- What one step can do: nothing without a host action, a reset, nothing in `Fault`, the fault of an illegal word,
or the decoded command (44_driver_commands R105). -/
theorem step_cases (s t : State) (h : step s = .next t) :
    (s.inputs = [] ∧ t = s)
    ∨ ∃ a rest, s.inputs = a :: rest ∧
      ((isReset a ∧ t = resetEngine { s with inputs := rest })
      ∨ (¬ isReset a ∧ s.phase = .fault ∧ t = { s with inputs := rest })
      ∨ (¬ isReset a ∧ s.phase ≠ .fault ∧ (∃ w why, a = .command w ∧ decode w = .illegal why)
          ∧ t = raise .illegalCmd { s with inputs := rest })
      ∨ (¬ isReset a ∧ s.phase ≠ .fault ∧ ∃ w i, a = .command w ∧ decode w = .command i ∧ i ≠ .reset
          ∧ exec i { s with inputs := rest } = .next t)) := by
  have inj : ∀ u, step s = .next u → t = u := fun u hu => by
    rw [h] at hu
    exact Host.Outcome.next.inj hu
  cases hin : s.inputs with
  | nil => exact .inl ⟨rfl, inj s (by simp [step, advance, hin])⟩
  | cons a rest =>
    refine .inr ⟨a, rest, rfl, ?_⟩
    cases a with
    | assertReset =>
      exact .inl ⟨.inl rfl, inj _ (by simp [step, advance, hin, perform])⟩
    | command w =>
      by_cases hw : w = 0x1000#16
      · subst hw
        refine .inl ⟨.inr rfl, inj _ ?_⟩
        have hd : decode 0x1000#16 = .command .reset := by decide
        by_cases hf : s.phase = .fault <;>
          simp [step, advance, hin, perform, stepWord, hf, hd, exec, execReset]
      · have hn : ¬ isReset (.command w) := by simp [isReset, hw]
        by_cases hf : s.phase = .fault
        · exact .inr (.inl ⟨hn, hf, inj _ (by simp [step, advance, hin, perform, stepWord, hf, hw])⟩)
        · cases hd : decode w with
          | illegal why =>
            exact .inr (.inr (.inl ⟨hn, hf, ⟨w, why, rfl, hd⟩,
              inj _ (by simp [step, advance, hin, perform, stepWord, hf, hd])⟩))
          | command i =>
            have hi : i ≠ .reset := by
              rintro rfl
              exact hw ((decode_eq_reset_iff w).mp hd)
            refine .inr (.inr (.inr ⟨hn, hf, w, i, rfl, hd, hi, ?_⟩))
            rw [← h]
            simp [step, advance, hin, perform, stepWord, hf, hd]

end Sys2Proof.Machine
end

