-- ==== Sys2Proof/Laws/Message.lean ====
section
/-! SUPPORT. Runs of many steps taken apart, and messages taken apart block by block. -/

namespace Sys2Proof.Machine

/-- The first step of a run. -/
theorem run_succ (n : Nat) (s t : State) (h : step s = .next t) :
    Sys2Proof.core.run (n + 1) s = Sys2Proof.core.run n t := by
  simp only [Host.Core.run, core, h]

/-- The first `m` steps of a run. -/
theorem run_add (m n : Nat) (s t : State) (h : Sys2Proof.core.run m s = .next t) :
    Sys2Proof.core.run (m + n) s = Sys2Proof.core.run n t := by
  induction m generalizing s with
  | zero => rw [Host.Outcome.next.inj h, Nat.zero_add]
  | succ m ih =>
    cases hs : step s with
    | next u =>
      rw [run_succ _ _ _ hs] at h
      rw [show m + 1 + n = m + n + 1 by omega, run_succ _ _ _ hs, ih u h]
    | fault r => nomatch r
    | refused r => simp [Host.Core.run, core, hs] at h

/-- No command touches the command port. -/
theorem exec_inputs (i : Instr) (s t : State) (h : exec i s = .next t) : t.inputs = s.inputs := by
  by_cases hf : s.phase = .fault
  · cases i
    all_goals
      cases Host.Outcome.next.inj h
      simp [whenLegal, hf, resetEngine]
  · rcases exec_cases i s t h hf with ⟨_, rfl⟩ | ⟨_, rfl⟩ | ⟨b, _, _, rfl⟩ | ⟨d, _, _, rfl⟩ | ⟨_, _, rfl⟩ | ⟨b, _, _, rfl⟩ |
      ⟨_, _, rfl⟩
    · rfl
    · rfl
    · rcases captureKeyByte_cases b s with ⟨_, e⟩ | ⟨_, e⟩ <;> rw [e]
    · rcases construct_cases d s with ⟨_, e⟩ | ⟨_, e⟩ <;> rw [e]
      rfl
    · rcases ensureSchedule_cases s with ⟨_, e⟩ | ⟨_, e⟩ <;> rw [e]
    · rcases acceptByte_cases b s with ⟨_, e⟩ | ⟨_, e⟩ <;> rw [e] <;> simp
    · rcases finishMessage_cases s with ⟨_, e⟩ | ⟨_, e⟩ <;> rw [e] <;> simp [padBlock]

/-- The output block of a block of bytes. -/
theorem processBlock_congr (rk : RoundKeys) (d : Direction) (m m' : List Byte) (j j' : Nat)
    (h : ∀ k, k < 8 → m.getD (8 * j + k) 0 = m'.getD (8 * j' + k) 0) :
    processBlock rk d m j = processBlock rk d m' j' := by
  simp only [processBlock]
  exact congrArg (fun b => blockBytes (block b rk d)) (blockOfBytes_congr h)

theorem processPadded_nil (rk : RoundKeys) (d : Direction) : processPadded rk d [] = [] := rfl

/-- The first block of a message is transformed on its own, and the rest as a message of its own
(44_driver_commands R110). -/
theorem processPadded_append_block (rk : RoundKeys) (d : Direction) (w m : List Byte) (h : w.length = 8) :
    processPadded rk d (w ++ m) = processBlock rk d w 0 ++ processPadded rk d m := by
  have first : processBlock rk d (w ++ m) 0 = processBlock rk d w 0 :=
    processBlock_congr rk d _ _ _ _ fun k hk => by rw [List.getD_append _ _ _ _ (by omega)]
  have later : ∀ j, processBlock rk d (w ++ m) (j + 1) = processBlock rk d m j := fun j =>
    processBlock_congr rk d _ _ _ _ fun k hk => by
      rw [List.getD_append_right _ _ _ _ (by omega), show 8 * (j + 1) + k - w.length = 8 * j + k by omega]
  rw [processPadded, List.length_append, h, show (8 + m.length) / 8 = m.length / 8 + 1 by omega,
    List.range_succ_eq_map, List.flatMap_cons, first, processPadded, List.flatMap_map]
  exact congrArg (fun f => processBlock rk d w 0 ++ List.flatMap f _) (funext later)

/-- Whole blocks in front of a message do not change its padding. -/
theorem padded_append (w m : List Byte) (h : w.length % 8 = 0) : padded (w ++ m) = w ++ padded m := by
  have : padCount (w ++ m).length = padCount m.length := by
    simp only [padCount, List.length_append]
    omega
  rw [padded, padded, List.append_assoc, this]

/-- A padded message is a whole number of blocks, the least that holds the message (44_driver_commands R110). -/
theorem padded_length (m : List Byte) : (padded m).length = 8 * ((m.length + 7) / 8) := by
  simp only [padded, padCount, List.length_append, List.length_replicate]
  omega

end Sys2Proof.Machine
end

