-- ==== Sys2Proof/Laws/PerInstr.lean ====
section
/-! SUPPORT. What holds of every command as syntax: its fields are well formed, and its word is one the list of legal words
admits (30_encoding R48, R49). -/

namespace Sys2Proof.Laws.EncodedWord

/-- The command is well formed, its word is in none of the four illegal groups, and the word is its row's base plus its
operand. -/
def Statement (i : Sys2Proof.Instr) : Prop :=
  i.WellFormed = true ∧ Sys2Proof.legalWord (Sys2Proof.encode i) = true
    ∧ ∃ row ∈ Sys2Proof.opcodeMap, row.name = Sys2Proof.mnemonic i ∧ row.value.toNat ≤ (Sys2Proof.encode i).toNat
      ∧ (Sys2Proof.encode i).toNat < row.value.toNat + 256

/-- A word of a row and a byte is legal when the opcode takes a byte. -/
theorem legal_byte_word (base : CmdWord) (b : Byte) (h : base = 0x2000#16 ∨ base = 0x5000#16) :
    Sys2Proof.legalWord (base + b.zeroExtend 16) = true ∧ base.toNat ≤ (base + b.zeroExtend 16).toNat
      ∧ (base + b.zeroExtend 16).toNat < base.toNat + 256 := by
  have hb := b.isLt
  have hbase : base.toNat = 8192 ∨ base.toNat = 20480 := by rcases h with rfl | rfl <;> decide
  have hw := toNat_base_add_byte base b (by omega)
  refine ⟨?_, by omega, by omega⟩
  simp only [legalWord, opcodeAssigned, zeroFieldClear, unusedOperandClear, initOperandClear, hw, Bool.and_eq_true,
    decide_eq_true_eq]
  omega

theorem reset : Statement .reset := by
  unfold Statement
  decide

theorem keyb (imm8 : Byte) : Statement (.keyb imm8) :=
  have h := legal_byte_word 0x2000#16 imm8 (.inl rfl)
  ⟨rfl, h.1, ⟨"KEYB", 0xFF00, 0x2000⟩, by decide, rfl, h.2⟩

theorem init (d : Direction) : Statement (.init d) := by
  cases d <;> (unfold Statement; decide)

theorem ksched : Statement .ksched := by
  unfold Statement
  decide

theorem datab (imm8 : Byte) : Statement (.datab imm8) :=
  have h := legal_byte_word 0x5000#16 imm8 (.inr rfl)
  ⟨rfl, h.1, ⟨"DATAB", 0xFF00, 0x5000⟩, by decide, rfl, h.2⟩

theorem final : Statement .final := by
  unfold Statement
  decide

end Sys2Proof.Laws.EncodedWord
end

