-- ==== Sys2Proof/Tests/Slice0.lean ====
section
/-! SUPPORT. The model's own tests. Expected values are the spec's (95_test_vectors and the examples of the rules); each
test names its source. The `test_witness_` theorems show, for each statement with hypotheses, concrete values that meet
all of them together, clause by clause. -/

namespace Sys2Proof.Tests

open Sys2Proof.Machine

/-! ### Words: 30_encoding R46 to R50, 95_test_vectors section 7.1 -/

theorem test_decode_reset : decode 0b0001000000000000#16 = .command .reset := by decide
theorem test_decode_keyb : decode 0b0010000000010011#16 = .command (.keyb 0x13) := by decide
theorem test_decode_keyb_last : decode 0b0010000011111111#16 = .command (.keyb 0xFF) := by decide
theorem test_decode_init_enc : decode 0b0011000000000000#16 = .command (.init .encrypt) := by decide
theorem test_decode_init_dec : decode 0b0011000000000001#16 = .command (.init .decrypt) := by decide
theorem test_decode_ksched : decode 0b0100000000000000#16 = .command .ksched := by decide
theorem test_decode_datab : decode 0b0101000001001000#16 = .command (.datab 0x48) := by decide
theorem test_decode_datab_first : decode 0b0101000000000000#16 = .command (.datab 0x00) := by decide
theorem test_decode_final : decode 0b0110000000000000#16 = .command .final := by decide
theorem test_decode_zero_word : decode 0x0000 = .illegal .reservedOpcode := by decide
theorem test_decode_all_ones : decode 0xFFFF = .illegal .zeroField := by decide
theorem test_decode_final_operand : decode 0x6001 = .illegal .unusedOperand := by decide
theorem test_decode_init_operand : decode 0x3080 = .illegal .initOperand := by decide

/-- The host's probe: a row's word of 16 bits, and a word too long to be a command. -/
theorem test_table_word :
    decodeTableWord 16 0x5048 = some (.datab 0x48) ∧ decodeTableWord 16 0x3002 = none
      ∧ decodeTableWord 24 0x5048 = none := by decide

/-! ### The well-formedness checks: an ill-formed word for each, which only that check refuses (30_encoding R49) -/

theorem test_illformed_opcode :
    opcodeAssigned 0x7000 = false ∧ zeroFieldClear 0x7000 = true ∧ unusedOperandClear 0x7000 = true
      ∧ initOperandClear 0x7000 = true ∧ legalWord 0x7000 = false := by decide
theorem test_illformed_zero :
    opcodeAssigned 0x2138 = true ∧ zeroFieldClear 0x2138 = false ∧ unusedOperandClear 0x2138 = true
      ∧ initOperandClear 0x2138 = true ∧ legalWord 0x2138 = false := by decide
theorem test_illformed_unused :
    opcodeAssigned 0x4001 = true ∧ zeroFieldClear 0x4001 = true ∧ unusedOperandClear 0x4001 = false
      ∧ initOperandClear 0x4001 = true ∧ legalWord 0x4001 = false := by decide
theorem test_illformed_init :
    opcodeAssigned 0x3002 = true ∧ zeroFieldClear 0x3002 = true ∧ unusedOperandClear 0x3002 = true
      ∧ initOperandClear 0x3002 = false ∧ legalWord 0x3002 = false := by decide
theorem test_legal_words :
    legalWord 0x1000 = true ∧ legalWord 0x20FF = true ∧ legalWord 0x3001 = true ∧ legalWord 0x4000 = true
      ∧ legalWord 0x5000 = true ∧ legalWord 0x6000 = true := by decide

/-! ### The datapath: 95_test_vectors sections 3 to 5 -/

/-- Section 4.1. -/
theorem test_bits : bits 0x80 = 0b10000000 ∧ bits 0xA5 = 0b10100101 ∧ byte 0b10000101 = 0x85 := by decide +kernel
/-- Section 4.2, row `IP`. -/
theorem test_permute_ip : permute 0x0123456789ABCDEF#64 tableIP = 0xCC00CCFFF0AAF0AA#64 := by decide +kernel
/-- Section 4.2, row `FP`. -/
theorem test_permute_fp : permute 0x0123456789ABCDEF#64 tableFP = 0xFF330FAA00330FAA#64 := by decide +kernel
/-- Section 4.2, row `PC1`. -/
theorem test_permute_pc1 : permute 0x0123456789ABCDEF#64 tablePC1 = 0xF0CCAA0AACCF00#56 := by decide +kernel
/-- Section 4.2, row `PC2`. -/
theorem test_permute_pc2 : permute 0x0123456789ABCD#56 tablePC2 = 0x3080E8BB7549#48 := by decide +kernel
/-- Section 4.2, row `E`. -/
theorem test_permute_e : permute 0x01234567#32 tableE = 0x802906A0AB0E#48 := by decide +kernel
/-- Section 4.2, row `P`. -/
theorem test_permute_p : permute 0x01234567#32 tableP = 0x80566C2C#32 := by decide +kernel
/-- Section 4.3. -/
theorem test_xor : xorVec 0x7A15557A1555#48 0x1B02EFFC7072#48 = 0x6117BA866527#48 := by decide +kernel
/-- Section 4.4. -/
theorem test_rotl28 :
    rotl28 0xF0CCAAF 1 = 0xE19955F ∧ rotl28 0x8000000 2 = 0x0000002 ∧ rotl28 0x0000001 2 = 0x0000004 := by decide +kernel
/-- Section 4.5, rows `000001`, `100000`, `011011` and `010000`. -/
theorem test_substitute :
    substitute 0 0b000001 = 0 ∧ substitute 0 0b100000 = 4 ∧ substitute 6 0b011011 = 15 ∧ substitute 5 0b010000 = 0 := by
  decide +kernel
/-- Section 4.6, round 1 of K1 and the corner case `r[31]`. -/
theorem test_roundF :
    roundF 0xF0AAF0AA 0x1B02EFFC7072 = 0x234AA9BB ∧ roundF 0x00000001 0x000000000000 = 0xD05AD19C := by decide +kernel
/-- Section 3.1: the first, the ninth and the last round key. -/
theorem test_ks :
    (ks 0x133457799BBCDFF1)[0] = 0x1B02EFFC7072 ∧ (ks 0x133457799BBCDFF1)[8] = 0xE0DBEBEDE781
      ∧ (ks 0x133457799BBCDFF1)[15] = 0xCB3D8B0E17F5 := by decide +kernel
/-- Section 2, K1, encryption. -/
theorem test_block_encrypt :
    block 0x0123456789ABCDEF (ks 0x133457799BBCDFF1) .encrypt = 0x85E813540F0AB405 := by decide +kernel
/-- Section 2, K7, decryption. -/
theorem test_block_decrypt :
    block 0x690F5B0D9A26939B (ks 0x7CA110454A1A6E57) .decrypt = 0x01A1D6D039776742 := by decide +kernel
/-- Section 6, row M11: unaligned input to a decrypting instance. -/
theorem test_process_unaligned :
    process [0x38, 0x62, 0x79, 0x74, 0x65, 0x6B, 0x65, 0x79] .decrypt [0xD3, 0xB3, 0x64]
      = some [0xC7, 0x94, 0x47, 0x23, 0x1B, 0x9F, 0xD6, 0x08] := by decide +kernel

/-! ### One step each -/

/-- A small state: a phase and the two counters, everything else as at reset. -/
def at' (p : Phase) (kcnt : BitVec 4) (bcnt : BitVec 3) : State :=
  { State.reset with
    phase := p, kcnt := kcnt, bcnt := bcnt, ecode := if p = .fault then .keyShort else .noFault }

/-- An instance with the key of "8bytekey", encrypting, with the bytes `48 69` ("Hi") waiting. -/
def hiWaiting : State :=
  { at' .ready 8 2 with
    key := #v[0x38, 0x62, 0x79, 0x74, 0x65, 0x6B, 0x65, 0x79]
    rk := ks 0x38627974656B6579
    ibuf := setSlot (setSlot State.reset.ibuf 0 0x48) 1 0x69 }

/-- A fresh instance with the key of K1 and seven bytes of K1's block waiting. -/
def sevenWaiting : State :=
  { at' .uninitialized 8 7 with
    key := #v[0x13, 0x34, 0x57, 0x79, 0x9B, 0xBC, 0xDF, 0xF1]
    ibuf := #v[0x01, 0x23, 0x45, 0x67, 0x89, 0xAB, 0xCD, 0x00] }

/-- `STATUS` after the next step takes the word `w`. -/
def statusAfter (s : State) (w : CmdWord) : Option StatusWord :=
  match step (present w s) with
  | .next t => some (status t)
  | .fault _ => none
  | .refused _ => none

/-- `OUT` after the next step takes the word `w`. -/
def outAfter (s : State) (w : CmdWord) : Option (List Byte) :=
  match step (present w s) with
  | .next t => some t.out
  | .fault _ => none
  | .refused _ => none

/-- 7.3, rows `I0`, `X` and the reset input: back to `0x0000`. -/
theorem test_reset_leaves_fault : statusAfter (at' .fault 3 5) 0x1000 = some 0x0000 := by decide
/-- 7.3, row `X` with `0x1001`: not exactly `RESET`, ignored. -/
theorem test_reset_operand_ignored_in_fault : statusAfter (at' .fault 0 0) 0x1001 = some 0x0014 := by decide
/-- 41_key_schedule R75, example: `KEYB 0x13` from reset. -/
theorem test_keyb_first : statusAfter State.reset 0x2013 = some 0x0040 := by decide
/-- 7.3, row `I8` with `0x2045`: the ninth key byte is dropped. -/
theorem test_keyb_ninth : statusAfter (at' .idle 8 0) 0x2045 = some 0x0200 := by decide
/-- 41_key_schedule R76, example: `INIT DEC` after eight key bytes. -/
theorem test_init_decrypt : statusAfter (at' .idle 8 0) 0x3001 = some 0x0209 := by decide
/-- 41_key_schedule R76, example: `INIT ENC` after three key bytes. -/
theorem test_init_short_key : statusAfter (at' .idle 3 0) 0x3000 = some 0x00D4 := by decide
/-- 7.3, row `U` with `0x4000`. -/
theorem test_ksched : statusAfter (at' .uninitialized 8 0) 0x4000 = some 0x0202 := by decide
/-- 7.3, row `R2` with `0x4000`: no return to `KeysScheduled`. -/
theorem test_ksched_ready : statusAfter (at' .ready 8 2) 0x4000 = some 0x0A03 := by decide
/-- 44_driver_commands R107, example: the eighth byte, on the first use of the schedule. -/
theorem test_datab_eighth :
    outAfter sevenWaiting 0x50EF = some [0x85, 0xE8, 0x13, 0x54, 0x0F, 0x0A, 0xB4, 0x05] := by decide +kernel
/-- 7.3, row `R2` with `0x5020`: the third byte. -/
theorem test_datab_third : statusAfter (at' .ready 8 2) 0x5020 = some 0x0E03 := by decide
/-- 7.3, row `U` with `0x6000`: the schedule is generated, nothing is emitted. -/
theorem test_final_empty :
    statusAfter (at' .uninitialized 8 0) 0x6000 = some 0x0203 ∧ outAfter (at' .uninitialized 8 0) 0x6000 = some [] := by
  decide
/-- 44_driver_commands R108, example: the last block of "Hi" is padded and emitted. -/
theorem test_final_pads :
    outAfter hiWaiting 0x6000 = some [0xD3, 0xB3, 0x64, 0xBB, 0x30, 0xC0, 0x04, 0x9B] := by decide +kernel
/-- 7.3, row `R2` with `0x6001`: an illegal word, `BCNT` keeps its value. -/
theorem test_illegal_word : statusAfter (at' .ready 8 2) 0x6001 = some 0x0A24 := by decide

/-! ### Witnesses: values that meet a statement's hypotheses together -/

theorem test_witness_EncodeInvertsDecode : decode 0x3001 = .command (.init .decrypt) := by decide
theorem test_witness_OpcodeMapIsExact :
    ⟨"INIT", 0xFFFE, 0x3000⟩ ∈ opcodeMap ∧ (0x3001#16 &&& 0xFFFE) = 0x3000#16 := by decide
theorem test_witness_ListsAssembleToTheirWords :
    (assemble [.keyb (.quoted 'H')] = some [0x2048] ∧ assemble [.init .decrypt, .reset] = some [0x3001, 0x1000])
      ∧ 'H'.toNat < 256 ∧ (Char.ofNat 255).toNat < 256 ∧ 256 ≤ (Char.ofNat 256).toNat := by decide
theorem test_witness_IllegalWordsAreTheListed :
    ((present 0x7000 State.reset).inputs = .command 0x7000 :: [] ∧ decode 0x7000 = .illegal .reservedOpcode)
      ∧ ((present 0x1001 (at' .fault 0 0)).inputs = .command 0x1001 :: [] ∧ decode 0x1001 = .illegal .unusedOperand) := by
  decide
theorem test_witness_PermuteMovesEachBit :
    (0 : Nat) < 64 ∧ ∀ (i : Nat) (h : i < 64), (tableFP[tableIP[i]]).val = i := by
  refine ⟨by decide, ?_⟩
  have all : ∀ i : Fin 64, (tableFP[tableIP[i]]).val = i.val := by decide +kernel
  exact fun i h => all ⟨i, h⟩
theorem test_witness_XorAddsBitsModuloTwo : (47 : Nat) < 48 := by decide
theorem test_witness_BytesAndVectorsConvert : (7 : Nat) < 8 ∧ (0 : Nat) < 8 := by decide
theorem test_witness_RotationIsCircular :
    ((1 : Nat) = 1 ∨ (1 : Nat) = 2) ∧ ((2 : Nat) = 1 ∨ (2 : Nat) = 2) ∧ (27 : Nat) < 28
      ∧ ∀ i j, i < 28 → j < 28 → (0xFFFFFFF#28).getMsbD i = (0xFFFFFFF#28).getMsbD j := by
  refine ⟨by decide, by decide, by decide, ?_⟩
  have all : ∀ i : Fin 28, ∀ j : Fin 28, (0xFFFFFFF#28).getMsbD i = (0xFFFFFFF#28).getMsbD j := by decide +kernel
  exact fun i j hi hj => all ⟨i, hi⟩ ⟨j, hj⟩
theorem test_witness_RoundKeyBitsComeFromKeyBits : (15 : Nat) < 16 ∧ (47 : Nat) < 48 := by decide
theorem test_witness_ParityPositionsAreUnread :
    (0x133457799BBCDFF1#64 ≠ 0x123456789ABCDEF0#64)
      ∧ ∀ i, i < 64 → i % 8 ≠ 7 → (0x133457799BBCDFF1#64).getMsbD i = (0x123456789ABCDEF0#64).getMsbD i := by
  decide +kernel
theorem test_witness_FullTurnAndWeakKeys :
    (∀ i j, i < 28 → j < 28 →
        (keyHalves 0x1F1F1F1F0E0E0E0E 0).1.getMsbD i = (keyHalves 0x1F1F1F1F0E0E0E0E 0).1.getMsbD j)
      ∧ ∀ i j, i < 28 → j < 28 →
        (keyHalves 0x1F1F1F1F0E0E0E0E 0).2.getMsbD i = (keyHalves 0x1F1F1F1F0E0E0E0E 0).2.getMsbD j := by
  have h : keyHalves 0x1F1F1F1F0E0E0E0E 0 = (0x0000000#28, 0xFFFFFFF#28) := by decide +kernel
  rw [h]
  exact ⟨fun i j _ _ => by simp, test_witness_RotationIsCircular.2.2.2⟩
/-- Block 0 of `r = 0xF0AAF0AA` with `k = 0x1B02EFFC7072` is `011000`: row 0, column 12; `P[8] = 0` (section 4.6). -/
theorem test_witness_RoundFunctionBitByBit :
    let b := fun (q : Fin 8) (j : Nat) =>
      ((0xF0AAF0AA#32).getMsbD ((4 * q.val + 31 + j) % 32) != (0x1B02EFFC7072#48).getMsbD (6 * q.val + j)).toNat
    (0 : Fin 4).val = 2 * b 0 0 + b 0 5 ∧ (12 : Fin 16).val = 8 * b 0 1 + 4 * b 0 2 + 2 * b 0 3 + b 0 4
      ∧ (tableP[(8 : Fin 32)]).val / 4 = (0 : Fin 8).val := by decide +kernel
/-- The clause that `F` depends on its arguments only through `XOR(PERMUTE(r, E), k)`. -/
theorem test_witness_RoundFunctionBitByBit_mix :
    xorVec (permute 0x00000000#32 tableE) 0xFFFFFFFFFFFF#48 = xorVec (permute 0xFFFFFFFF#32 tableE) 0x000000000000#48 := by
  decide +kernel
theorem test_witness_RoundsFollowTheFormula : (0 : Nat) < 16 ∧ (15 : Nat) < 16 ∧ (31 : Nat) < 32 := by decide
theorem test_witness_BlockInversion :
    ∀ (n : Nat) (hn : n < 16), (Vector.replicate 16 (0 : RoundKey))[n] = (Vector.replicate 16 (0 : RoundKey))[0] := by
  intro n hn
  simp
theorem test_witness_BlockLeavesFirstByteFirst :
    (∀ (k : Nat) (hk : k < 8), (Vector.replicate 8 (bits 0xA5))[k] = bits ((fun _ => 0xA5) k))
      ∧ (0 : Nat) < 8 ∧ (7 : Nat) < 8 := ⟨fun k hk => by simp, by decide, by decide⟩

/-- Every clause of the statements about `KEYB` and `INIT`, at the ends of the counter's ranges. -/
theorem test_witness_KeybInEveryPhase :
    ((at' .idle 0 0).phase = .idle ∧ (at' .idle 0 0).kcnt < 8#4) ∧ ((at' .idle 7 0).phase = .idle ∧ (at' .idle 7 0).kcnt < 8#4)
      ∧ ((at' .idle 8 0).phase = .idle ∧ 8#4 ≤ (at' .idle 8 0).kcnt)
      ∧ (at' .uninitialized 8 0).phase = .uninitialized ∧ (at' .keysScheduled 8 0).phase = .keysScheduled
      ∧ (at' .ready 8 7).phase = .ready ∧ (at' .fault 8 0).phase = .fault := by decide
theorem test_witness_InitInEveryPhase :
    ((at' .idle 8 0).phase = .idle ∧ 8#4 ≤ (at' .idle 8 0).kcnt) ∧ ((at' .idle 7 0).phase = .idle ∧ (at' .idle 7 0).kcnt < 8#4)
      ∧ (at' .ready 8 0).phase = .ready ∧ (at' .fault 8 0).phase = .fault
      ∧ ((at' .idle 8 0).dir = .encrypt ∧ (at' .idle 8 0).ecode = .noFault ∧ (at' .idle 8 0).bcnt = 0#3
        ∧ (at' .idle 8 0).kcnt = 8#4 ∧ (at' .idle 3 0).kcnt = 3#4) := by decide
/-- A fresh instance with the key of K1, encrypting. -/
def freshK1 : State := { at' .uninitialized 8 0 with key := #v[0x13, 0x34, 0x57, 0x79, 0x9B, 0xBC, 0xDF, 0xF1] }
/-- The last clause of the statement about `KSCHED`. -/
theorem test_witness_KschedInEveryPhase_example :
    freshK1.phase = .uninitialized ∧ joinSlots freshK1.key = 0x133457799BBCDFF1 ∧ freshK1.dir = .encrypt
      ∧ freshK1.ecode = .noFault ∧ freshK1.kcnt = 8#4 ∧ freshK1.bcnt = 0#3 :=
  ⟨rfl, by decide +kernel, rfl, rfl, rfl, rfl⟩
theorem test_witness_KschedInEveryPhase_optional :
    ∃ t u v, exec .ksched freshK1 = .next t ∧ exec (.datab 0x48) freshK1 = .next u ∧ exec (.datab 0x48) t = .next v :=
  ⟨_, _, _, rfl, rfl, rfl⟩
theorem test_witness_KschedInEveryPhase :
    (at' .uninitialized 8 0).phase = .uninitialized
      ∧ ((at' .keysScheduled 8 0).phase = .keysScheduled ∨ (at' .keysScheduled 8 0).phase = .ready)
      ∧ ((at' .ready 8 2).phase = .keysScheduled ∨ (at' .ready 8 2).phase = .ready)
      ∧ (at' .idle 0 0).phase = .idle ∧ (at' .fault 0 0).phase = .fault := by decide
/-- The clauses of the statements about `DATAB` and `FINAL`, with an empty, a begun and a nearly full block. -/
theorem test_witness_DatabInEveryPhase :
    ((at' .uninitialized 8 0).phase = .uninitialized ∧ (at' .uninitialized 8 0).bcnt ≠ 7#3)
      ∧ ((at' .ready 8 6).phase = .ready ∧ (at' .ready 8 6).bcnt ≠ 7#3)
      ∧ (sevenWaiting.phase = .uninitialized ∧ sevenWaiting.bcnt = 7#3
        ∧ ∃ full : Slots, ∀ (k : Nat) (hk : k < 8), full[k] = if k = 7 then bits 0xEF else sevenWaiting.ibuf[k])
      ∧ (at' .idle 0 0).phase = .idle ∧ (at' .fault 0 0).phase = .fault := by
  refine ⟨by decide, by decide, ⟨rfl, rfl, setSlot sevenWaiting.ibuf 7 (bits 0xEF), fun k hk => ?_⟩, rfl, rfl⟩
  rw [getElem_setSlot _ _ _ _ hk]
  simp [eq_comm]
/-- The last clause of the statement about `DATAB`. -/
theorem test_witness_DatabInEveryPhase_example :
    let s := { sevenWaiting with phase := .ready, rk := ks 0x133457799BBCDFF1 }
    s.phase = .ready ∧ s.bcnt = 7#3 ∧ s.rk = ks 0x133457799BBCDFF1 ∧ s.dir = .encrypt
      ∧ ∀ (k : Nat) (hk : k < 7), s.ibuf[k] = (#v[0x01, 0x23, 0x45, 0x67, 0x89, 0xAB, 0xCD] : Vector (BitVec 8) 7)[k] := by
  refine ⟨rfl, rfl, rfl, rfl, fun k hk => ?_⟩
  interval_cases k <;> rfl
/-- The last clause of the statement about `FINAL`. -/
theorem test_witness_FinalInEveryPhase_example :
    hiWaiting.phase = .ready ∧ hiWaiting.bcnt = 2#3 ∧ hiWaiting.rk = ks 0x38627974656B6579 ∧ hiWaiting.dir = .encrypt
      ∧ hiWaiting.ibuf[0] = 0x48 ∧ hiWaiting.ibuf[1] = 0x69 := ⟨rfl, rfl, rfl, rfl, rfl, rfl⟩
theorem test_witness_FinalInEveryPhase :
    (hiWaiting.phase = .ready ∧ hiWaiting.bcnt ≠ 0#3
        ∧ ∃ full : Slots, ∀ (k : Nat) (hk : k < 8),
          full[k] = if k < hiWaiting.bcnt.toNat then hiWaiting.ibuf[k] else bits 0x20#8)
      ∧ ((at' .keysScheduled 8 0).phase = .keysScheduled ∧ (at' .keysScheduled 8 0).bcnt = 0#3)
      ∧ (at' .idle 0 0).phase = .idle ∧ (at' .fault 0 0).phase = .fault := by
  refine ⟨⟨rfl, by decide, padSlots hiWaiting.ibuf 2 6, fun k hk => ?_⟩, by decide, rfl, rfl⟩
  have h2 : hiWaiting.bcnt.toNat = 2 := rfl
  rw [getElem_padSlots _ _ _ _ hk, h2]
  by_cases h : k < 2
  · rw [if_neg (by omega), if_pos h]
  · rw [if_pos (by omega), if_neg h]
    rfl
theorem test_witness_ResetInEveryPhase :
    (∃ u, exec .final (at' .fault 8 2) = .next u) ∧ (at' .fault 8 2).phase = .fault
      ∧ (∃ u, exec .ksched (at' .ready 8 2) = .next u) ∧ (at' .ready 8 2).phase = .ready
      ∧ Instr.final ≠ .reset ∧ Instr.ksched ≠ .reset := ⟨⟨_, rfl⟩, rfl, ⟨_, rfl⟩, rfl, by decide, by decide⟩
theorem test_witness_StateTableIsExact :
    State.reset.kcnt ≤ 8#4 ∧ (at' .idle 8 0).kcnt ≤ 8#4 ∧ State.reset.phase ≠ .fault
      ∧ (∃ t, exec .ksched State.reset = .next t ∧ t.phase = .fault)
      ∧ (present 0x7000 State.reset).inputs = .command 0x7000 :: [] ∧ decode 0x7000 = .illegal .reservedOpcode
      ∧ (∃ t, step (present 0x7000 State.reset) = .next t)
      ∧ (present 0x7000 (at' .fault 0 0)).phase = .fault ∧ ∃ t, step (present 0x7000 (at' .fault 0 0)) = .next t :=
  ⟨by decide, by decide, by decide, ⟨_, rfl, rfl⟩, rfl, by decide, ⟨_, rfl⟩, rfl, _, rfl⟩
theorem test_witness_HelpersPrepareTheInstance : EngineInv freshK1 ∧ freshK1.phase = .uninitialized := by
  constructor
  · constructor <;> simp [freshK1, at', State.reset, hasInstance]
  · rfl
/-- Both clauses: a scheduled engine that takes the first byte of a block, and one that completes none. -/
theorem test_witness_WorkingRegistersAreKeptBetweenUses :
    (∃ t, exec (.datab 0x48) (at' .keysScheduled 8 0) = .next t ∧ t.out = (at' .keysScheduled 8 0).out)
      ∧ Instr.datab 0x48 ≠ .reset ∧ (at' .keysScheduled 8 0).phase ≠ .uninitialized :=
  ⟨⟨_, rfl, rfl⟩, by decide, by decide⟩

/-- The state with one word on the command port, for each clause of the statements about the step. -/
theorem test_witness_StepRunsTheDecodedCommand :
    (present 0x2013 State.reset).inputs = .command 0x2013 :: [] ∧ decode 0x2013 = .command (.keyb 0x13)
      ∧ (present 0x1000 (at' .fault 0 0)).inputs = .command 0x1000 :: [] ∧ (present 0x1000 (at' .fault 0 0)).phase = .fault
      ∧ (present 0x7000 State.reset).inputs = .command 0x7000 :: [] ∧ (present 0x7000 State.reset).phase ≠ .fault
      ∧ decode 0x7000 = .illegal .reservedOpcode ∧ 0x7000#16 ≠ 0x1000#16 := by decide
/-- Each fault is raised somewhere, and so is none. -/
theorem test_witness_FaultsAreRaisedExactlyWhen :
    (∃ t, step (present 0x7000 State.reset) = .next t ∧ t.ecode = .illegalCmd)
      ∧ (∃ t, step (present 0x6000 State.reset) = .next t ∧ t.ecode = .badSequence)
      ∧ (∃ t, step (present 0x2041 (at' .ready 8 0)) = .next t ∧ t.ecode = .badSequence)
      ∧ (∃ t, step (present 0x3000 (at' .idle 7 0)) = .next t ∧ t.ecode = .keyShort)
      ∧ (∃ t, step (present 0x3000 (at' .idle 8 0)) = .next t ∧ t.ecode = .noFault)
      ∧ State.reset.phase ≠ .fault ∧ State.reset.ecode = .noFault :=
  ⟨⟨_, rfl, rfl⟩, ⟨_, rfl, rfl⟩, ⟨_, rfl, rfl⟩, ⟨_, rfl, rfl⟩, ⟨_, rfl, rfl⟩, by decide, rfl⟩
theorem test_witness_FaultPhaseIgnoresAllButReset :
    (present 0x1001 (at' .fault 0 0)).inputs = .command 0x1001 :: [] ∧ (present 0x1001 (at' .fault 0 0)).phase = .fault
      ∧ 0x1001#16 ≠ 0x1000#16 := by decide
theorem test_witness_ResetInputEqualsResetCommand :
    ({ at' .fault 0 0 with inputs := [.assertReset] } : State).inputs = .assertReset :: []
      ∧ (present 0x1000 (at' .fault 0 0)).inputs = .command 0x1000#16 :: [] := by decide
theorem test_witness_IdleEngineRetainsState : State.reset.inputs = [] := rfl
/-- For the statements about every step: one that runs a command, and one that only takes a word. -/
theorem test_witness_StepTakesOneActionInOrder :
    (∃ t, step (present 0x2013 State.reset) = .next t ∧ t.kcnt = 1#4)
      ∧ ∃ t, step (present 0x2013 (at' .fault 0 0)) = .next t ∧ t.kcnt = 0#4 :=
  ⟨⟨_, rfl, rfl⟩, ⟨_, rfl, rfl⟩⟩
theorem test_witness_FaultEntryWritesTwoFields :
    (present 0x4000 State.reset).phase ≠ .fault ∧ ∃ t, step (present 0x4000 State.reset) = .next t ∧ t.phase = .fault :=
  ⟨by decide, _, rfl, rfl⟩
theorem test_witness_OnlyResetLeavesFault :
    (present 0x1000 (at' .fault 0 0)).phase = .fault
      ∧ ∃ t, step (present 0x1000 (at' .fault 0 0)) = .next t ∧ t.phase ≠ .fault :=
  ⟨rfl, _, rfl, by decide⟩
theorem test_witness_OnlyListedPhaseChanges :
    ∃ t, step (present 0x4000 (at' .uninitialized 8 0)) = .next t ∧ t.phase = .keysScheduled := ⟨_, rfl, rfl⟩
/-- Each clause: a step that changes the key count, the direction, the output counter, the fault code. -/
theorem test_witness_EachElementHasItsWriters :
    (¬ isReset (.command 0x2013) ∧ ∃ t, step (present 0x2013 State.reset) = .next t ∧ t.kcnt ≠ State.reset.kcnt)
      ∧ (¬ isReset (.command 0x3001) ∧ ∃ t, step (present 0x3001 (at' .idle 8 0)) = .next t ∧ t.dir ≠ (at' .idle 8 0).dir)
      ∧ (¬ isReset (.command 0x5048) ∧ ∃ t, step (present 0x5048 (at' .ready 8 2)) = .next t ∧ t.bcnt ≠ (at' .ready 8 2).bcnt)
      ∧ (¬ isReset (.command 0x7000)
        ∧ ∃ t, step (present 0x7000 (at' .ready 8 2)) = .next t ∧ t.ecode ≠ (at' .ready 8 2).ecode) :=
  ⟨⟨by simp [isReset], _, rfl, by decide⟩, ⟨by simp [isReset], _, rfl, by decide⟩, ⟨by simp [isReset], _, rfl, by decide⟩,
    ⟨by simp [isReset], _, rfl, by decide⟩⟩
/-- The clause about `RK`: a fresh instance with known round-key contents, scheduled by `KSCHED`. -/
theorem test_witness_EachElementHasItsWriters_rk :
    ∃ t, step (present 0x4000 { sevenWaiting with rk := Vector.replicate 16 0, bcnt := 0 }) = .next t
      ∧ t.rk ≠ Vector.replicate 16 0 :=
  ⟨_, rfl, by decide +kernel⟩
/-- The clause about `PHASE`: each listed forward change happens, and so does a fault. -/
theorem test_witness_EachElementHasItsWriters_phase :
    (∃ t, step (present 0x3001 (at' .idle 8 0)) = .next t ∧ t.phase = .uninitialized)
      ∧ (∃ t, step (present 0x4000 (at' .uninitialized 8 0)) = .next t ∧ t.phase = .keysScheduled)
      ∧ (∃ t, step (present 0x5048 (at' .uninitialized 8 0)) = .next t ∧ t.phase = .ready)
      ∧ (∃ t, step (present 0x6000 (at' .keysScheduled 8 0)) = .next t ∧ t.phase = .ready)
      ∧ ∃ t, step (present 0x4000 (at' .idle 8 0)) = .next t ∧ t.phase = .fault :=
  ⟨⟨_, rfl, rfl⟩, ⟨_, rfl, rfl⟩, ⟨_, rfl, rfl⟩, ⟨_, rfl, rfl⟩, ⟨_, rfl, rfl⟩⟩
/-- The clauses about the working registers: whatever value is drawn, a state that held another one before. -/
theorem test_witness_EachElementHasItsWriters_working :
    (∃ t, step (present 0x4000 { at' .uninitialized 8 0 with c := Config.cNoValue 1 + 1#28 }) = .next t
        ∧ t.c ≠ Config.cNoValue 1 + 1#28)
      ∧ ∃ t, step (present 0x6000 { hiWaiting with l := Config.lNoValue 1 + 1#32 }) = .next t
        ∧ t.l ≠ Config.lNoValue 1 + 1#32 := by
  refine ⟨⟨_, rfl, ?_⟩, ⟨_, rfl, ?_⟩⟩
  · change Config.cNoValue 1 ≠ Config.cNoValue 1 + 1#28
    simp
  · change Config.lNoValue 1 ≠ Config.lNoValue 1 + 1#32
    simp
theorem test_witness_OutputGrowsByWholeBlocks :
    (∃ t, step (present 0x2013 State.reset) = .next t) ∧ ∃ t, step (present 0x50EF sevenWaiting) = .next t :=
  ⟨⟨_, rfl⟩, ⟨_, rfl⟩⟩
theorem test_witness_ScheduledInstanceIsFixed :
    ((at' .keysScheduled 8 0).phase = .keysScheduled ∧ ∃ t, step (present 0x5048 (at' .keysScheduled 8 0)) = .next t)
      ∧ ((at' .ready 8 0).phase = .ready ∧ ∃ t, step (present 0x2041 (at' .ready 8 0)) = .next t)
      ∧ (present 0x5048 (at' .ready 8 0)).inputs = .command 0x5048 :: [] ∧ ¬ isReset (.command 0x5048) :=
  ⟨⟨rfl, _, rfl⟩, ⟨rfl, _, rfl⟩, rfl, by simp [isReset]⟩
theorem test_witness_RunStartsAtReset : ({ ninst := 2 } : Config.Params).ninst = 2 := rfl

/-- A state in `Ready` that meets the invariants, with two bytes waiting and one block out. -/
theorem engineInv_hiWaiting : EngineInv { hiWaiting with out := List.replicate 8 0 } := by
  constructor
  · decide
  · decide
  · intro _
    rfl
  · intro _
    exact congrArg ks (by decide +kernel)
  · decide
  · decide
theorem test_witness_StepKeepsInvariants :
    EngineInv { hiWaiting with out := List.replicate 8 0 }
      ∧ ∃ t, step { hiWaiting with out := List.replicate 8 0 } = .next t := ⟨engineInv_hiWaiting, _, rfl⟩
/-- Two engines at reset that differ in what `KEY` happens to hold. -/
theorem test_witness_UnwrittenContentsAreNeverRead :
    EngineInv { State.reset with key := Vector.replicate 8 0 }
      ∧ AgreeWhereWritten { State.reset with key := Vector.replicate 8 0 } { State.reset with key := Vector.replicate 8 1 }
      ∧ (Vector.replicate 8 (0 : BitVec 8) ≠ Vector.replicate 8 1)
      ∧ (∃ t, step { State.reset with key := Vector.replicate 8 0 } = .next t)
      ∧ ∃ t, step { State.reset with key := Vector.replicate 8 1 } = .next t := by
  refine ⟨⟨?_, ?_, ?_, ?_, ?_, ?_⟩, ⟨rfl, rfl, rfl, rfl, rfl, rfl, rfl, ?_, ?_, ?_⟩, by decide, ⟨_, rfl⟩, ⟨_, rfl⟩⟩
  all_goals simp [State.reset, hasInstance]
theorem test_witness_RunsDependOnHostActionsAlone :
    AtReset { State.reset with key := Vector.replicate 8 0 } ∧ AtReset { State.reset with key := Vector.replicate 8 1 }
      ∧ ({ State.reset with key := Vector.replicate 8 0 } : State).inputs
        = ({ State.reset with key := Vector.replicate 8 1 } : State).inputs := by
  refine ⟨?_, ?_, rfl⟩ <;> exact ⟨⟨rfl, rfl, rfl, rfl, rfl⟩, rfl⟩

/-- A fresh instance, nothing waiting. -/
def fresh : State := { at' .uninitialized 8 0 with key := #v[0x38, 0x62, 0x79, 0x74, 0x65, 0x6B, 0x65, 0x79] }

theorem engineInv_fresh : EngineInv fresh := by
  constructor <;> simp [fresh, at', State.reset, hasInstance]
theorem test_witness_MessageAppendsItsOutput :
    EngineInv fresh ∧ fresh.phase = .uninitialized ∧ fresh.bcnt = 0#3 := ⟨engineInv_fresh, rfl, rfl⟩
/-- The reset state of a run, and one that keeps earlier output (95_test_vectors P2 part b). -/
theorem test_witness_ConstructionThenMessage :
    InResetState State.reset
      ∧ InResetState { State.reset with out := [0xD3, 0xB3, 0x64, 0xBB, 0x30, 0xC0, 0x04, 0x9B] }
      ∧ 8 ≤ ([0x38, 0x62, 0x79, 0x74, 0x65, 0x6B, 0x65, 0x79] : List Byte).length :=
  ⟨⟨rfl, rfl, rfl, rfl, rfl⟩, ⟨rfl, rfl, rfl, rfl, rfl⟩, by decide⟩
/-- No key byte and seven; a legal word, an illegal word and an operand on `RESET` follow. -/
theorem test_witness_ShortKeyIsRefused :
    InResetState State.reset ∧ ([0x38, 0x62, 0x79, 0x74, 0x65, 0x6B, 0x65] : List Byte).length < 8
      ∧ ([] : List Byte).length < 8 ∧ ∀ w ∈ ([0x5048, 0x7000, 0x1001] : List CmdWord), w ≠ 0x1000#16 :=
  ⟨⟨rfl, rfl, rfl, rfl, rfl⟩, by decide, by decide, by simp⟩
theorem test_witness_KschedChangesNoOutput :
    EngineInv fresh ∧ fresh.phase = .uninitialized
      ∧ (∃ t, Sys2Proof.core.run 1 (presentWords [0x6000] fresh) = .next t)
      ∧ ∃ t, Sys2Proof.core.run 2 (presentWords [encode .ksched, 0x6000] fresh) = .next t :=
  ⟨engineInv_fresh, rfl, ⟨_, rfl⟩, ⟨_, rfl⟩⟩
/-- Section 6, row M1, and a message of two bytes. -/
theorem test_witness_OutputLengthIsPadded :
    process [0x38, 0x62, 0x79, 0x74, 0x65, 0x6B, 0x65, 0x79] .encrypt [] = some []
      ∧ ∃ out, process [0x38, 0x62, 0x79, 0x74, 0x65, 0x6B, 0x65, 0x79] .encrypt [0x48, 0x69] = some out :=
  ⟨by decide +kernel, _, rfl⟩
theorem test_witness_RoundTripRestoresPaddedMessage :
    8 ≤ ([0x38, 0x62, 0x79, 0x74, 0x65, 0x6B, 0x65, 0x79] : List Byte).length ∧ ([] : List Byte).length % 8 = 0 := by decide
theorem test_witness_OnlyFirstEightKeyBytesMatter :
    8 ≤ ([0x38, 0x62, 0x79, 0x74, 0x65, 0x6B, 0x65, 0x79, 0x45] : List Byte).length := by decide
theorem test_witness_BlocksAreIndependent :
    (List.replicate 8 (0x20 : Byte)).length % 8 = 0
      ∧ (∃ o, process (List.replicate 8 0x01) .encrypt (List.replicate 8 0x20) = some o)
      ∧ ∃ o, process (List.replicate 8 0x01) .encrypt [0x48] = some o := ⟨by decide, ⟨_, rfl⟩, ⟨_, rfl⟩⟩
theorem test_witness_InterleavedEnginesAreIndependent :
    [State.reset, State.reset].length = ({ ninst := 2 } : Config.Params).ninst
      ∧ [State.reset, State.reset][1]? = some State.reset := ⟨rfl, rfl⟩

end Sys2Proof.Tests
end

section
/-! PROOF. A step that enters `Fault` is one `raise` of a fault on the state with its word taken from the port
(00_scope R11, 60_exceptions R123). -/

namespace Sys2Proof.Machine

/-! ### The phase each command's own effect leaves -/

@[simp] theorem captureKeyByte_phase (b : Byte) (s : State) : (captureKeyByte b s).phase = s.phase := by
  rcases captureKeyByte_cases b s with ⟨_, e⟩ | ⟨_, e⟩ <;> rw [e]

@[simp] theorem acceptByte_phase (b : Byte) (s : State) : (acceptByte b s).phase = .ready := by
  rcases acceptByte_cases b s with ⟨_, e⟩ | ⟨_, e⟩ <;> simp [e]

@[simp] theorem finishMessage_phase (s : State) : (finishMessage s).phase = .ready := by
  rcases finishMessage_cases s with ⟨_, e⟩ | ⟨_, e⟩ <;> simp [e]

theorem ensureSchedule_phase_ne_fault (s : State) (h : s.phase ≠ .fault) : (ensureSchedule s).phase ≠ .fault := by
  rcases ensureSchedule_cases s with ⟨_, e⟩ | ⟨_, e⟩ <;> simp [e, h]

/-! ### Entry into `Fault` -/

/-- `NoFault` is the code of no fault (60_exceptions R117). -/
theorem causeCode_ne_noFault (f : Cause) : causeCode f ≠ .noFault := by
  cases f <;> decide

/-- A command that leads into `Fault` does so by raising, so none of its own writes remains (00_scope R11). -/
theorem exec_enters_fault (i : Instr) (s t : State) (h : exec i s = .next t) (hs : s.phase ≠ .fault)
    (ht : t.phase = .fault) : ∃ f, t = raise f s := by
  rcases exec_cases i s t h hs with ⟨_, rfl⟩ | ⟨_, rfl⟩ | ⟨b, _, _, rfl⟩ | ⟨d, _, _, rfl⟩ | ⟨_, _, rfl⟩ |
    ⟨b, _, _, rfl⟩ | ⟨_, _, rfl⟩
  · simp at ht
  · exact ⟨.badSequence, rfl⟩
  · exact absurd (by simpa using ht) hs
  · rcases construct_cases d s with ⟨_, e⟩ | ⟨_, e⟩
    · exact ⟨.keyShort, e⟩
    · simp [e] at ht
  · exact absurd ht (ensureSchedule_phase_ne_fault s hs)
  · simp at ht
  · simp at ht

/-- A step from outside `Fault` into it takes its word from the port and raises. -/
theorem step_enters_fault (s t : State) (h : step s = .next t) (hs : s.phase ≠ .fault) (ht : t.phase = .fault) :
    ∃ f, t = raise f { s with inputs := s.inputs.tail } := by
  rcases step_cases s t h with ⟨_, rfl⟩ | ⟨a, rest, hin, hstep⟩
  · exact absurd ht hs
  · rw [hin, List.tail_cons]
    rcases hstep with ⟨_, rfl⟩ | ⟨_, hf, _⟩ | ⟨_, _, _, rfl⟩ | ⟨_, _, w, i, _, _, _, hexec⟩
    · simp at ht
    · exact absurd hf hs
    · exact ⟨.illegalCmd, rfl⟩
    · exact exec_enters_fault i _ t hexec hs ht

/-- Settles O38: the entering step is one `raise`, which writes the fault's code and the phase alone. -/
theorem faultEntryWritesTwoFields : Obligations.FaultEntryWritesTwoFields := by
  intro s t hs h ht
  obtain ⟨f, rfl⟩ := step_enters_fault s t h hs ht
  exact ⟨causeCode_ne_noFault f, rfl⟩

end Sys2Proof.Machine
end

section
/-! PROOF. `STATUS` as a number, and each of its fields as a digit of that number (10_state R24). -/

namespace Sys2Proof.Machine

/-- The five elements fit their fields, so no sum carries into the next one. -/
theorem status_toNat (s : State) :
    (status s).toNat = (phaseCode s.phase).toNat + 8 * (dirCode s.dir).toNat + 16 * (ecodeCode s.ecode).toNat
      + 64 * s.kcnt.toNat + 1024 * s.bcnt.toNat := by
  simp only [status, BitVec.toNat_add, BitVec.toNat_mul, BitVec.toNat_setWidth, BitVec.toNat_ofNat]
  omega

/-- A field of a status word holds `v` when `v` is the digit of the word at the field's place. -/
theorem statusField_eq_of_digit (w : StatusWord) (start len : Nat) (v : BitVec len)
    (h : w.toNat / 2 ^ start % 2 ^ len = v.toNat) : w.extractLsb' start len = v := by
  apply BitVec.eq_of_toNat_eq
  rw [BitVec.extractLsb'_toNat, Nat.shiftRight_eq_div_pow, h]

/-- The five fields end at bit 13 (10_state R24). -/
theorem status_reserved (s : State) : (status s).extractLsb' 13 3 = 0#3 := by
  have hsum := status_toNat s
  apply statusField_eq_of_digit
  rw [BitVec.toNat_zero]
  omega

/-- Settles O44: the sum fixes `STATUS` as a number, and each field is a digit of it. -/
theorem statusShowsItsFields : Obligations.StatusShowsItsFields := by
  refine ⟨⟨rfl, rfl⟩, fun s => ?_⟩
  have hsum := status_toNat s
  refine ⟨?_, ?_, ?_, ?_, ?_, status_reserved s, hsum⟩ <;> apply statusField_eq_of_digit <;> omega

end Sys2Proof.Machine
end

section
/-! PROOF. A system steps engine by engine: what one step of engine `j`, and then any order of steps, leaves at each
position (20_memory R42). -/

namespace Sys2Proof.Machine

/-! ### One step of one engine -/

@[simp] theorem stepEngine_length (j : Nat) (sys : Engines) : (stepEngine j sys).length = sys.length :=
  List.length_modify ..

@[simp] theorem stepEngine_getElem?_same (k : Nat) (sys : Engines) :
    (stepEngine k sys)[k]? = sys[k]?.map stepOf :=
  List.getElem?_modify_eq ..

theorem stepEngine_getElem?_of_ne {j k : Nat} (h : j ≠ k) (sys : Engines) :
    (stepEngine j sys)[k]? = sys[k]? :=
  List.getElem?_modify_ne _ _ h

/-! ### Any order of steps -/

@[simp] theorem interleave_nil (sys : Engines) : interleave [] sys = sys := rfl

@[simp] theorem interleave_concat (order : List Nat) (j : Nat) (sys : Engines) :
    interleave (order ++ [j]) sys = stepEngine j (interleave order sys) :=
  List.foldl_append ..

theorem interleave_length (order : List Nat) (sys : Engines) : (interleave order sys).length = sys.length := by
  induction order using List.reverseRecOn with
  | nil => rfl
  | append_singleton order j ih => rw [interleave_concat, stepEngine_length, ih]

/-- The induction takes the last step off the order, as `stepsOf` does: it is engine `k`'s own, and counts, or another
engine's, and neither moves engine `k` nor counts. -/
theorem interleave_getElem? (order : List Nat) (sys : Engines) (k : Nat) (s : State) (hk : sys[k]? = some s) :
    (interleave order sys)[k]? = some (stepsOf s (order.count k)) := by
  induction order using List.reverseRecOn with
  | nil => exact hk
  | append_singleton order j ih =>
    rw [interleave_concat, List.count_append]
    by_cases h : j = k
    · subst h
      rw [stepEngine_getElem?_same, ih, List.count_singleton_self]
      rfl
    · rw [stepEngine_getElem?_of_ne h, ih, List.count_singleton, if_neg (by simpa using h), Nat.add_zero]

/-- Settles O58: the length is kept step by step, and engine `k` by induction on the order of the steps. -/
theorem interleavedEnginesAreIndependent : Obligations.InterleavedEnginesAreIndependent := by
  intro p sys order hlen
  exact ⟨(interleave_length order sys).trans hlen, interleave_getElem? order sys⟩

end Sys2Proof.Machine
end

section
/-! PROOF. Each command has exactly one word, its row's base plus the operand, so a legal word and its command determine
each other (30_encoding R45, R48, R50). -/

namespace Sys2Proof

/-! ### The word of a command as a number -/

theorem encode_keyb_toNat (b : Byte) : (encode (.keyb b)).toNat = 0x2000 + b.toNat :=
  toNat_base_add_byte 0x2000#16 b (by decide)

theorem encode_datab_toNat (b : Byte) : (encode (.datab b)).toNat = 0x5000 + b.toNat :=
  toNat_base_add_byte 0x5000#16 b (by decide)

/-- The direction bit is the whole operand byte when the other bits of the byte are 0 (30_encoding R47). -/
theorem encode_init_toNat (imm : Byte) (h : initHighField imm = 0#7) :
    (encode (.init (directionField imm))).toNat = 0x3000 + imm.toNat := by
  have hhigh : imm.toNat / 2 = 0 := by rw [← initHighField_toNat, h]; rfl
  have himm : imm = 0#8 ∨ imm = 1#8 := by
    simp only [← BitVec.toNat_inj, BitVec.toNat_ofNat]
    omega
  rcases himm with rfl | rfl <;> decide

/-! ### Decoder and encoder -/

/-- The fields of a command's word are its opcode, 0 and its operand. -/
theorem decode_encode (i : Instr) : decode (encode i) = .command i := by
  cases i with
  | reset => decide
  | keyb b =>
    obtain ⟨ho, hz, hi⟩ := fields_of_toNat _ 2 0 b.toNat (by omega) b.isLt (encode_keyb_toNat b)
    simp [decode, ho, hz, hi]
  | init d => cases d <;> decide
  | ksched => decide
  | datab b =>
    obtain ⟨ho, hz, hi⟩ := fields_of_toNat _ 5 0 b.toNat (by omega) b.isLt (encode_datab_toNat b)
    simp [decode, ho, hz, hi]
  | final => decide

/-- In each legal case of the decoder the word's three fields are those of the command's word. -/
theorem encode_eq_of_decode_eq {w : CmdWord} {i : Instr} (h : decode w = .command i) : encode i = w := by
  apply BitVec.eq_of_toNat_eq
  rw [word_of_fields w]
  rcases decode_cases w with ⟨_, hd⟩ | ⟨hz, ho, hi, hd⟩ | ⟨hz, ho, hd⟩ | ⟨hz, ho, hi, hd⟩ | ⟨hz, ho, hi, hd⟩ |
    ⟨hz, ho, hd⟩ | ⟨hz, ho, hi, hd⟩ | ⟨_, _, _, hd⟩ | ⟨_, _, _, hd⟩ | ⟨_, _, _, _, _, _, _, hd⟩ <;> cases h.symm.trans hd
  · rw [hz, ho, hi]; rfl
  · rw [hz, ho, encode_keyb_toNat]; rfl
  · rw [hz, ho, encode_init_toNat _ hi]; rfl
  · rw [hz, ho, hi]; rfl
  · rw [hz, ho, encode_datab_toNat]; rfl
  · rw [hz, ho, hi]; rfl

theorem decode_eq_command_iff (w : CmdWord) (i : Instr) : decode w = .command i ↔ encode i = w :=
  ⟨encode_eq_of_decode_eq, fun h => h ▸ decode_encode i⟩

theorem encode_injective : Function.Injective encode := fun i j h =>
  Decoded.command.inj (by rw [← decode_encode i, h, decode_encode])

end Sys2Proof
end

section
/-! PROOF. The opcode map: how many words are legal, and which words each row's mask and match pick out
(30_encoding R48). -/

namespace Sys2Proof

/-! ### How many words are legal -/

/-- A command is a mnemonic with its operand: one summand for each row of the map. -/
def instrEquivOperand : Instr ≃ Unit ⊕ Byte ⊕ Direction ⊕ Unit ⊕ Byte ⊕ Unit where
  toFun
    | .reset => .inl ()
    | .keyb b => .inr (.inl b)
    | .init d => .inr (.inr (.inl d))
    | .ksched => .inr (.inr (.inr (.inl ())))
    | .datab b => .inr (.inr (.inr (.inr (.inl b))))
    | .final => .inr (.inr (.inr (.inr (.inr ()))))
  invFun
    | .inl _ => .reset
    | .inr (.inl b) => .keyb b
    | .inr (.inr (.inl d)) => .init d
    | .inr (.inr (.inr (.inl _))) => .ksched
    | .inr (.inr (.inr (.inr (.inl b)))) => .datab b
    | .inr (.inr (.inr (.inr (.inr _)))) => .final
  left_inv i := by cases i <;> rfl
  right_inv := by rintro (_ | _ | _ | _ | _ | _) <;> rfl

theorem card_byte : Nat.card Byte = 256 :=
  (Nat.card_congr BitVec.equivFin.toEquiv).trans (Nat.card_fin _)

theorem card_direction : Nat.card Direction = 2 :=
  Nat.card_eq_two_iff.mpr ⟨.encrypt, .decrypt, by decide, Set.eq_univ_of_forall fun d => by cases d <;> simp⟩

/-- The spec's sum 1 + 256 + 2 + 1 + 256 + 1 (30_encoding R48). -/
theorem card_instr : Nat.card Instr = 517 := by
  have : Finite Direction := Nat.finite_of_card_ne_zero (by rw [card_direction]; decide)
  rw [Nat.card_congr instrEquivOperand]
  simp only [Nat.card_sum, Nat.card_unique, card_byte, card_direction]

/-- The legal words are the words of the commands, one each. -/
theorem card_legal_words : Nat.card { w : CmdWord // ∃ i, decode w = .command i } = 517 := by
  simp only [decode_eq_command_iff]
  exact (Nat.card_range_of_injective encode_injective).trans card_instr

/-! ### Masks and matches -/

/-- A mask that clears the low `k` bits: the words that match are the `2 ^ k` words from the match on. -/
theorem and_highMask_eq_iff (w v : CmdWord) (k : Nat) (hv : v.toNat % 2 ^ k = 0) :
    w &&& (BitVec.allOnes 16 <<< k) = v ↔ v.toNat ≤ w.toNat ∧ w.toNat < v.toNat + 2 ^ k := by
  have hlt : w.toNat / 2 ^ k * 2 ^ k < 2 ^ 16 := (Nat.div_mul_le_self ..).trans_lt w.isLt
  rw [← BitVec.shiftLeft_ushiftRight, ← BitVec.toNat_inj, BitVec.toNat_shiftLeft, BitVec.toNat_ushiftRight,
    Nat.shiftRight_eq_div_pow, Nat.shiftLeft_eq, Nat.mod_eq_of_lt hlt]
  constructor
  · have hsplit := Nat.div_add_mod' w.toNat (2 ^ k)
    have hmod := Nat.mod_lt w.toNat (Nat.two_pow_pos k)
    omega
  · intro ⟨hle, hub⟩
    have hmul : v.toNat / 2 ^ k * 2 ^ k = v.toNat := Nat.div_mul_cancel (Nat.dvd_of_mod_eq_zero hv)
    have hquot : w.toNat / 2 ^ k = v.toNat / 2 ^ k :=
      Nat.div_eq_of_lt_le (by rwa [hmul]) (by rwa [Nat.succ_mul, hmul])
    rw [hquot, hmul]

/-- The rows of `RESET`, `KSCHED` and `FINAL`: one word each. -/
theorem and_0xFFFF_eq_iff (w v : CmdWord) : w &&& 0xFFFF#16 = v ↔ v = w := by
  rw [show 0xFFFF#16 = BitVec.allOnes 16 by decide, BitVec.and_allOnes, eq_comm]

/-- The rows of `KEYB` and `DATAB`: the base plus any byte. -/
theorem and_0xFF00_eq_iff (w base : CmdWord) (hbase : base.toNat % 256 = 0) :
    w &&& 0xFF00#16 = base ↔ ∃ b : Byte, base + b.zeroExtend 16 = w := by
  have hword := fun b => toNat_base_add_byte base b (by have := base.isLt; omega)
  rw [show 0xFF00#16 = BitVec.allOnes 16 <<< 8 by decide, and_highMask_eq_iff w base 8 hbase]
  constructor
  · intro ⟨hle, hlt⟩
    refine ⟨imm8Field w, BitVec.eq_of_toNat_eq ?_⟩
    rw [hword, imm8Field_toNat]
    omega
  · rintro ⟨b, rfl⟩
    have := b.isLt
    rw [hword]
    omega

/-- The row of `INIT`: the base plus either direction. -/
theorem and_0xFFFE_eq_iff (w : CmdWord) : w &&& 0xFFFE#16 = 0x3000#16 ↔ ∃ d, encode (.init d) = w := by
  rw [show 0xFFFE#16 = BitVec.allOnes 16 <<< 1 by decide, and_highMask_eq_iff w 0x3000#16 1 (by decide)]
  constructor
  · intro ⟨hle, hlt⟩
    have hw : w.toNat = 0x3000 ∨ w.toNat = 0x3001 := by
      rw [BitVec.toNat_ofNat] at hle hlt
      omega
    rcases hw with h | h
    · exact ⟨.encrypt, BitVec.eq_of_toNat_eq h.symm⟩
    · exact ⟨.decrypt, BitVec.eq_of_toNat_eq h.symm⟩
  · rintro ⟨_ | _, rfl⟩ <;> decide

/-! ### Rows and commands -/

/-- Some command, mnemonic by mnemonic. -/
theorem exists_instr_iff (p : Instr → Prop) :
    (∃ i, p i) ↔ p .reset ∨ (∃ b, p (.keyb b)) ∨ (∃ d, p (.init d)) ∨ p .ksched ∨ (∃ b, p (.datab b)) ∨ p .final := by
  constructor
  · rintro ⟨i, hi⟩
    cases i with
    | reset => exact .inl hi
    | keyb b => exact .inr (.inl ⟨b, hi⟩)
    | init d => exact .inr (.inr (.inl ⟨d, hi⟩))
    | ksched => exact .inr (.inr (.inr (.inl hi)))
    | datab b => exact .inr (.inr (.inr (.inr (.inl ⟨b, hi⟩))))
    | final => exact .inr (.inr (.inr (.inr (.inr hi))))
  · rintro (h | ⟨_, h⟩ | ⟨_, h⟩ | h | ⟨_, h⟩ | h) <;> exact ⟨_, h⟩

/-- Row by row, the words that match are the words of the commands of the row's mnemonic. -/
theorem row_match_iff (w : CmdWord) (row : OpcodeRow) (h : row ∈ opcodeMap) :
    w &&& row.mask = row.value ↔ ∃ i, decode w = .command i ∧ mnemonic i = row.name := by
  simp only [opcodeMap, List.mem_cons, List.not_mem_nil, or_false] at h
  simp only [decode_eq_command_iff, exists_instr_iff, mnemonic]
  rcases h with rfl | rfl | rfl | rfl | rfl | rfl <;>
    simp only [String.reduceEq, and_true, and_false, exists_const, exists_false, or_false, false_or]
  · exact and_0xFFFF_eq_iff w _
  · exact and_0xFF00_eq_iff w _ (by decide)
  · exact and_0xFFFE_eq_iff w
  · exact and_0xFFFF_eq_iff w _
  · exact and_0xFF00_eq_iff w _ (by decide)
  · exact and_0xFFFF_eq_iff w _

theorem exists_row_of_mnemonic (i : Instr) : ∃ row ∈ opcodeMap, row.name = mnemonic i := by
  cases i <;> simp [opcodeMap, mnemonic]

theorem row_eq_of_name_eq : ∀ row ∈ opcodeMap, ∀ row' ∈ opcodeMap, row.name = row'.name → row = row' := by
  decide

/-- Two rows that a word matches have the mnemonic of the one command it decodes to. -/
theorem row_eq_of_match (w : CmdWord) (row row' : OpcodeRow) (hrow : row ∈ opcodeMap) (hrow' : row' ∈ opcodeMap)
    (hm : w &&& row.mask = row.value) (hm' : w &&& row'.mask = row'.value) : row = row' := by
  obtain ⟨i, hi, hname⟩ := (row_match_iff w row hrow).mp hm
  obtain ⟨j, hj, hname'⟩ := (row_match_iff w row' hrow').mp hm'
  cases hi.symm.trans hj
  exact row_eq_of_name_eq row hrow row' hrow' (hname.symm.trans hname')

/-- Settles O4: each row's words are its base plus an operand, which no other row shares, and the legal words are as many
as the commands. -/
theorem opcodeMapIsExact : Obligations.OpcodeMapIsExact :=
  ⟨rfl, row_match_iff, row_eq_of_match, card_legal_words⟩

end Sys2Proof
end

section
/-! PROOF. The illegal words by number and by the rows they miss, and what a step does with one (30_encoding R49). -/

namespace Sys2Proof.Machine

/-! ### Which words are illegal -/

/-- The decoder's cases, its fields read as numbers: the illegal ones are the listed groups, the others none of them. -/
theorem exists_illegal_iff (w : CmdWord) :
    (∃ why, decode w = .illegal why) ↔
      (w.toNat / 4096 = 0 ∨ 7 ≤ w.toNat / 4096)
        ∨ w.toNat / 256 % 16 ≠ 0
        ∨ ((w.toNat / 4096 = 1 ∨ w.toNat / 4096 = 4 ∨ w.toNat / 4096 = 6) ∧ w.toNat % 256 ≠ 0)
        ∨ (w.toNat / 4096 = 3 ∧ w.toNat % 256 / 2 ≠ 0) := by
  have h := decode_cases w
  simp only [← BitVec.toNat_inj, opField_toNat, zeroField_toNat, imm8Field_toNat, initHighField_toNat,
    BitVec.toNat_ofNat, ne_eq] at h
  rcases h with ⟨hz, hd⟩ | ⟨hz, ho, hi, hd⟩ | ⟨hz, ho, hd⟩ | ⟨hz, ho, hi, hd⟩ | ⟨hz, ho, hi, hd⟩ |
    ⟨hz, ho, hd⟩ | ⟨hz, ho, hi, hd⟩ | ⟨hz, ho, hi, hd⟩ | ⟨hz, ho, hi, hd⟩ | ⟨hz, h1, h2, h3, h4, h5, h6, hd⟩
  · exact iff_of_true ⟨_, hd⟩ (by omega)
  iterate 6 exact iff_of_false (by simp [hd]) (by omega)
  iterate 3 exact iff_of_true ⟨_, hd⟩ (by omega)

theorem exists_illegal_iff_no_command (w : CmdWord) :
    (∃ why, decode w = .illegal why) ↔ ¬ ∃ i, decode w = .command i := by
  cases decode w <;> simp

/-- Every command has a row, and every row only words of commands. -/
theorem exists_illegal_iff_no_row (w : CmdWord) :
    (∃ why, decode w = .illegal why) ↔ ∀ row ∈ opcodeMap, w &&& row.mask ≠ row.value := by
  rw [exists_illegal_iff_no_command]
  constructor
  · intro h row hrow hm
    obtain ⟨i, hi, _⟩ := (row_match_iff w row hrow).mp hm
    exact h ⟨i, hi⟩
  · rintro h ⟨i, hi⟩
    obtain ⟨row, hrow, hname⟩ := exists_row_of_mnemonic i
    exact h row hrow ((row_match_iff w row hrow).mpr ⟨i, hi, hname.symm⟩)

/-! ### A step that takes an illegal word -/

theorem step_command (s : State) (w : CmdWord) (rest : List HostAction) (h : s.inputs = .command w :: rest) :
    step s = stepWord w { s with inputs := rest } := by
  simp only [step, advance, h, perform]

/-- An illegal word is not `RESET`, so `Fault` ignores it; in any other phase the decoder refuses it. -/
theorem stepWord_illegal (s : State) (w : CmdWord) (why : IllegalWord) (h : decode w = .illegal why) :
    stepWord w s = if s.phase = .fault then .next s else .next (raise .illegalCmd s) := by
  have hw : w ≠ 0x1000#16 := fun e => by cases h.symm.trans ((decode_eq_reset_iff w).mpr e)
  simp only [stepWord, h, if_neg hw]

/-- Settles O5: the decoder's cases by number, the rows by their words, and the step by the word it takes. -/
theorem illegalWordsAreTheListed : Obligations.IllegalWordsAreTheListed :=
  ⟨fun w => ⟨exists_illegal_iff w, exists_illegal_iff_no_row w⟩,
    fun s w why _ hin hd => (step_command s w _ hin).trans (stepWord_illegal _ w why hd)⟩

end Sys2Proof.Machine
end

section
/-! PROOF. `ROTL28` is the library's rotation, so its number is the shifted number plus what leaves at index 0, and its
single places add up to any number of places (40_permutation_network R59). -/

namespace Sys2Proof.Machine

theorem rotl28_eq_rotateLeft (v : KeyHalf) (s : Nat) : rotl28 v s = v.rotateLeft s :=
  vec_ext fun i hi => by
    rw [getMsbD_rotl28 _ _ _ hi, BitVec.getMsbD_rotateLeft, Nat.add_comm]
    simp [hi]

/-- The shifted number is a multiple of `2 ^ s` and what leaves at index 0 is below `2 ^ s`, so the library's bitwise
or is a sum. -/
theorem rotl28_toNat (v : KeyHalf) (s : Nat) (hs : s < 28) :
    (rotl28 v s).toNat = v.toNat * 2 ^ s % 2 ^ 28 + v.toNat / 2 ^ (28 - s) := by
  have hpow : 2 ^ 28 = 2 ^ (28 - s) * 2 ^ s := by rw [← Nat.pow_add, Nat.sub_add_cancel hs.le]
  have hwrapped : v.toNat / 2 ^ (28 - s) < 2 ^ s := Nat.div_lt_of_lt_mul (hpow ▸ v.isLt)
  have hshifted : v.toNat * 2 ^ s % 2 ^ 28 = (v.toNat % 2 ^ (28 - s)) <<< s := by
    rw [hpow, Nat.mul_mod_mul_right, Nat.shiftLeft_eq]
  rw [rotl28_eq_rotateLeft, BitVec.toNat_rotateLeft, Nat.mod_eq_of_lt hs, Nat.shiftLeft_eq,
    Nat.shiftRight_eq_div_pow, hshifted, Nat.shiftLeft_add_eq_or_of_lt hwrapped]

theorem rotl28_of_equal_bits (v : KeyHalf) (s : Nat)
    (h : ∀ i j, i < 28 → j < 28 → v.getMsbD i = v.getMsbD j) : rotl28 v s = v :=
  vec_ext fun i hi => (getMsbD_rotl28 v s i hi).trans (h _ i (Nat.mod_lt _ (by decide)) hi)

theorem rotl28_one_iterate (v : KeyHalf) (n : Nat) : (fun u => rotl28 u 1)^[n] v = rotl28 v n := by
  induction n with
  | zero => exact (rotl28_zero v).symm
  | succ n ih => rw [Function.iterate_succ_apply', ih, rotl28_rotl28]

theorem rotl28_full_turn (v : KeyHalf) : rotl28 v 28 = v :=
  vec_ext fun i hi => by rw [getMsbD_rotl28 v 28 i hi, Nat.add_mod_right, Nat.mod_eq_of_lt hi]

/-- Settles O10: the number through the library's rotation, the full turn by adding up its single places. -/
theorem rotationIsCircular : Obligations.RotationIsCircular := by
  refine ⟨by decide +kernel, fun v => ⟨fun s hs => ?_, (rotl28_rotl28 v 1 1).symm, ?_⟩⟩
  · have hlt : s < 28 := by omega
    exact ⟨getMsbD_rotl28 v s, rotl28_toNat v s hlt, rotl28_of_equal_bits v s⟩
  · exact (rotl28_one_iterate v 28).trans (rotl28_full_turn v)

end Sys2Proof.Machine
end

section
/-! PROOF. `PERMUTE`: a table that undoes another, and the vectors every table keeps (40_permutation_network R55). -/

namespace Sys2Proof.Machine

/-- On the finite index set a left inverse is also a right inverse: `u` undoes the table `t` from either side. -/
theorem table_inverse_symm {n : Nat} (t u : Vector (Fin n) n) (h : ∀ (i : Nat) (hi : i < n), (u[t[i]]).val = i) :
    ∀ (i : Nat) (hi : i < n), (t[u[i]]).val = i := by
  have hleft : Function.LeftInverse (fun i : Fin n => u[i]) (fun i : Fin n => t[i]) :=
    fun i => Fin.ext (h i i.isLt)
  intro i hi
  exact congrArg Fin.val (hleft.rightInverse_of_card_le le_rfl ⟨i, hi⟩)

/-- Any table copies a vector of equal bits to a vector of equal bits. -/
theorem permute_zero {m n : Nat} (t : Vector (Fin m) n) : permute (0#m) t = 0#n :=
  vec_ext fun i hi => by rw [getMsbD_permute _ _ _ hi, BitVec.getMsbD_zero, BitVec.getMsbD_zero]

theorem permute_allOnes {m n : Nat} (t : Vector (Fin m) n) : permute (BitVec.allOnes m) t = BitVec.allOnes n := by
  rw [← BitVec.not_zero, permute_not, permute_zero, BitVec.not_zero]

/-- Settles O7: the rule bit by bit, and the inverse table used from its other side. -/
theorem permuteMovesEachBit : Obligations.PermuteMovesEachBit :=
  ⟨fun _ _ v t i hi => getMsbD_permute v t i hi,
    fun _ v t u h => permute_permute_of_inverse v u t (table_inverse_symm t u h),
    fun _ _ t => permute_zero t,
    fun _ _ t => permute_allOnes t,
    by decide +kernel⟩

end Sys2Proof.Machine
end

section
/-! PROOF. `XOR` is the library's bitwise exclusive or, whose laws it takes over (40_permutation_network R56). -/

namespace Sys2Proof.Machine

theorem toNat_bne_eq_add_mod_two (p q : Bool) : (p != q).toNat = (p.toNat + q.toNat) % 2 := by
  cases p <;> cases q <;> rfl

theorem getMsbD_xorVec_toNat {n : Nat} (a b : BitVec n) (i : Nat) :
    ((xorVec a b).getMsbD i).toNat = ((a.getMsbD i).toNat + (b.getMsbD i).toNat) % 2 := by
  rw [getMsbD_xorVec, toNat_bne_eq_add_mod_two]

theorem xorVec_self {n : Nat} (a : BitVec n) : xorVec a a = 0#n := by
  rw [xorVec_eq, BitVec.xor_self]

theorem xorVec_zero {n : Nat} (a : BitVec n) : xorVec a 0#n = a := by
  rw [xorVec_eq, BitVec.xor_zero]

theorem xorVec_comm {n : Nat} (a b : BitVec n) : xorVec a b = xorVec b a := by
  rw [xorVec_eq, xorVec_eq, BitVec.xor_comm]

theorem xorVec_assoc {n : Nat} (a b c : BitVec n) : xorVec (xorVec a b) c = xorVec a (xorVec b c) := by
  simp only [xorVec_eq, BitVec.xor_assoc]

/-- Settles O8: the sum of two bits modulo 2 is their inequality, and the laws are those of the library's operation. -/
theorem xorAddsBitsModuloTwo : Obligations.XorAddsBitsModuloTwo :=
  ⟨by decide +kernel, fun _ a b c =>
    ⟨fun i _ => getMsbD_xorVec_toNat a b i, xorVec_self a, xorVec_zero a, xorVec_comm a b, xorVec_assoc a b c,
      xorVec_xorVec_cancel a b⟩⟩

end Sys2Proof.Machine
end

section
/-! PROOF. `BITS` and `BYTE` number the bits of a byte the same way, most significant first
(40_permutation_network R57, R58). -/

namespace Sys2Proof.Machine

theorem getMsbD_byte_eq_getLsbD (b : Byte) (j : Nat) (hj : j < 8) : b.getMsbD j = b.getLsbD (7 - j) := by
  rw [BitVec.getMsbD_eq_getLsbD, decide_eq_true hj, Bool.true_and]

/-- The weighted sum of eight bits is below 256, so the byte holds it without loss. -/
theorem byte_toNat (v : BitVec 8) : (byte v).toNat =
    128 * (v.getMsbD 0).toNat + 64 * (v.getMsbD 1).toNat + 32 * (v.getMsbD 2).toNat + 16 * (v.getMsbD 3).toNat
      + 8 * (v.getMsbD 4).toNat + 4 * (v.getMsbD 5).toNat + 2 * (v.getMsbD 6).toNat + (v.getMsbD 7).toNat := by
  have hbit (i : Nat) : (v.getMsbD i).toNat ≤ 1 := Bool.toNat_le _
  rw [byte, BitVec.toNat_ofNat, Nat.mod_eq_of_lt]
  linarith only [hbit 0, hbit 1, hbit 2, hbit 3, hbit 4, hbit 5, hbit 6, hbit 7]

/-- Settles O9: both conversions keep the vector, so each undoes the other. -/
theorem bytesAndVectorsConvert : Obligations.BytesAndVectorsConvert :=
  ⟨fun b j hj => (getMsbD_bits b j).trans (getMsbD_byte_eq_getLsbD b j hj),
    byte_toNat,
    fun b => (byte_eq _).trans (bits_eq b),
    fun v => (bits_eq _).trans (byte_eq v),
    fun m k j hk hj => (getMsbD_blockOfBytes m k j hk hj).trans (getMsbD_byte_eq_getLsbD _ j hj),
    by decide +kernel⟩

end Sys2Proof.Machine
end

section
/-! PROOF. What the rules say of the constant tables: finite facts, one lemma a table
(40_permutation_network R61 to R67, 42_feistel_function R87). -/

namespace Sys2Proof.Machine

/-! ### The initial and the final permutation -/

theorem tableIP_closed_form (r c : Fin 8) : (tableIP[8 * r.val + c.val]).val
    = 8 * (7 - c.val) + (#v[1, 3, 5, 7, 0, 2, 4, 6] : Vector Nat 8)[r.val] := by
  revert r c
  decide +kernel

theorem tableFP_tableIP : ∀ (i : Nat) (hi : i < 64), (tableFP[tableIP[i]]).val = i := by
  have hentry : ∀ i : Fin 64, (tableFP[tableIP[i]]).val = i.val := by decide +kernel
  exact fun i hi => hentry ⟨i, hi⟩

theorem tableIP_tableFP : ∀ (i : Nat) (hi : i < 64), (tableIP[tableFP[i]]).val = i :=
  table_inverse_symm tableIP tableFP tableFP_tableIP

/-- The permutations undo each other because their tables do. -/
theorem permute_tableIP_tableFP (v : Block) : permute (permute v tableIP) tableFP = v :=
  permute_permute_of_inverse v tableFP tableIP tableIP_tableFP

theorem permute_tableFP_tableIP (v : Block) : permute (permute v tableFP) tableIP = v :=
  permute_permute_of_inverse v tableIP tableFP tableFP_tableIP

/-- Settles O11: `FP` reads back each entry of `IP`, and the rest follows for permutations of a finite set. -/
theorem finalTableInvertsInitial : Obligations.FinalTableInvertsInitial :=
  ⟨tableIP_closed_form,
    fun i => ⟨tableFP_tableIP i i.isLt, tableIP_tableFP i i.isLt⟩,
    fun v => ⟨permute_tableIP_tableFP v, permute_tableFP_tableIP v⟩,
    by decide +kernel⟩

/-! ### The other tables -/

theorem tablePC1_nodup : tablePC1.toList.Nodup := by decide +kernel

/-- The parity positions, the last bit of each key byte, are the ones `PC1` leaves out. -/
theorem tablePC1_omits :
    (List.finRange 64).filter (fun i => !tablePC1.toList.contains i) = [7, 15, 23, 31, 39, 47, 55, 63] := by
  decide +kernel

theorem tablePC2_nodup : tablePC2.toList.Nodup := by decide +kernel

theorem tablePC2_omits :
    (List.finRange 56).filter (fun i => !tablePC2.toList.contains i) = [8, 17, 21, 24, 34, 37, 42, 53] := by
  decide +kernel

/-- `PC2` draws the first half of a round key from `C` and the second from `D`. -/
theorem tablePC2_keeps_halves (i : Fin 48) : (tablePC2[i]).val < 28 ↔ i.val < 24 := by
  revert i
  decide +kernel

theorem tableE_closed_form (g : Fin 8) (j : Fin 6) :
    (tableE[6 * g.val + j.val]).val = (4 * g.val + 31 + j.val) % 32 := by
  revert g j
  decide +kernel

/-- `E` repeats the outer two bits of each group of four. -/
theorem tableE_count (i : Fin 32) :
    tableE.toList.count i = if i.val % 4 = 0 ∨ i.val % 4 = 3 then 2 else 1 := by
  revert i
  decide +kernel

theorem tableP_nodup : tableP.toList.Nodup := by decide +kernel

theorem tableSHIFT_closed_form (n : Fin 16) : tableSHIFT[n] = if n.val + 1 ∈ [1, 2, 9, 16] then 1 else 2 := by
  revert n
  decide +kernel

theorem tableSBOX_row_nodup (i : Fin 8) (row : Fin 4) : (tableSBOX[i][row]).toList.Nodup := by
  revert i row
  decide +kernel

/-- The flat tables agree with the boxes at each of the 8 * 64 inputs. -/
theorem slice_tableSFLAT (i : Fin 8) (b : BitVec 6) : slice tableSFLAT[i] (4 * b.toNat) 4 = substitute i b := by
  revert i b
  decide +kernel

/-- Settles O12: each table's facts from its lemmas, the sum of the rotations and the rules' examples by evaluation. -/
theorem tablesHaveTheirStatedShape : Obligations.TablesHaveTheirStatedShape :=
  ⟨tablePC1_nodup, tablePC1_omits, tablePC2_nodup, tablePC2_omits, tablePC2_keeps_halves, tableE_closed_form,
    tableE_count, tableP_nodup, tableSHIFT_closed_form, by decide, tableSBOX_row_nodup, slice_tableSFLAT,
    by decide +kernel⟩

end Sys2Proof.Machine
end

section
/-! PROOF. What the checks before a command's own effect answer in each phase (44_driver_commands R104, R105), and the
command's own effects on each side of their tests. -/

namespace Sys2Proof.Machine

/-! ### A command is its phase check in front of its effect -/

theorem exec_keyb (b : Byte) (s : State) : exec (.keyb b) s = .next (whenLegal acceptsKey (captureKeyByte b) s) := rfl

theorem exec_init (d : Direction) (s : State) : exec (.init d) s = .next (whenLegal acceptsKey (construct d) s) := rfl

theorem exec_ksched (s : State) : exec .ksched s = .next (whenLegal hasInstance ensureSchedule s) := rfl

theorem exec_datab (b : Byte) (s : State) : exec (.datab b) s = .next (whenLegal hasInstance (acceptByte b) s) := rfl

theorem exec_final (s : State) : exec .final s = .next (whenLegal hasInstance finishMessage s) := rfl

/-! ### The phase check, phase by phase -/

/-- In `Fault` the command is ignored (60_exceptions R124). -/
theorem whenLegal_of_fault (legal : Phase → Bool) (effect : State → State) {s : State} (h : s.phase = .fault) :
    whenLegal legal effect s = s := if_pos h

theorem whenLegal_acceptsKey_of_idle (effect : State → State) {s : State} (h : s.phase = .idle) :
    whenLegal acceptsKey effect s = effect s := by
  simp [whenLegal, acceptsKey, h]

theorem whenLegal_acceptsKey_of_instance (effect : State → State) {s : State}
    (h : s.phase = .uninitialized ∨ s.phase = .keysScheduled ∨ s.phase = .ready) :
    whenLegal acceptsKey effect s = raise .badSequence s := by
  rcases h with h | h | h <;> simp [whenLegal, acceptsKey, h]

theorem whenLegal_hasInstance_of_instance (effect : State → State) {s : State}
    (h : s.phase = .uninitialized ∨ s.phase = .keysScheduled ∨ s.phase = .ready) :
    whenLegal hasInstance effect s = effect s := by
  rcases h with h | h | h <;> simp [whenLegal, hasInstance, h]

theorem whenLegal_hasInstance_of_idle (effect : State → State) {s : State} (h : s.phase = .idle) :
    whenLegal hasInstance effect s = raise .badSequence s := by
  simp [whenLegal, hasInstance, h]

/-! ### The effects of the key commands on each side of their tests -/

theorem captureKeyByte_of_lt (b : Byte) {s : State} (h : s.kcnt < 8#4) :
    captureKeyByte b s = { s with key := setSlot s.key s.kcnt.toNat (bits b), kcnt := s.kcnt + 1#4 } := if_pos h

/-- Later key bytes are dropped (41_key_schedule R75). -/
theorem captureKeyByte_of_le (b : Byte) {s : State} (h : 8#4 ≤ s.kcnt) : captureKeyByte b s = s :=
  if_neg (BitVec.not_lt.mpr h)

theorem construct_of_lt (d : Direction) {s : State} (h : s.kcnt < 8#4) : construct d s = raise .keyShort s := if_pos h

theorem construct_of_le (d : Direction) {s : State} (h : 8#4 ≤ s.kcnt) :
    construct d s = { s with dir := d, phase := .uninitialized } := if_neg (BitVec.not_lt.mpr h)

/-- The schedule is generated, up to the working registers and the counter of free values. -/
theorem ensureSchedule_of_uninitialized {s : State} (h : s.phase = .uninitialized) :
    ensureSchedule s =
      withWorkingOf (ensureSchedule s) { s with rk := ks (joinSlots s.key), phase := .keysScheduled } := by
  simp [ensureSchedule, withWorkingOf, h]

theorem ensureSchedule_of_ne {s : State} (h : s.phase ≠ .uninitialized) : ensureSchedule s = s := if_neg h

end Sys2Proof.Machine
end

section
/-! PROOF. `KEYB` and `INIT` phase by phase (41_key_schedule R75, R76). -/

namespace Sys2Proof.Machine

/-- Settles O24: the phase check decides what happens, and in `Idle` the count of key bytes decides whether the byte is
captured. -/
theorem keybInEveryPhase : Obligations.KeybInEveryPhase := by
  intro s b
  refine ⟨rfl, fun hp hk => ?_, fun hp hk => ?_, fun hp => ?_, fun hp => ?_, ?_⟩
  · refine ⟨_, by rw [exec_keyb, whenLegal_acceptsKey_of_idle _ hp, captureKeyByte_of_lt b hk], rfl, fun k hk8 => ?_⟩
    simp only [getElem_setSlot, eq_comm]
  · rw [exec_keyb, whenLegal_acceptsKey_of_idle _ hp, captureKeyByte_of_le b hk]
  · rw [exec_keyb, whenLegal_acceptsKey_of_instance _ hp]
    rfl
  · rw [exec_keyb, whenLegal_of_fault _ _ hp]
  · refine ⟨_, by rw [exec_keyb, whenLegal_acceptsKey_of_idle _ rfl, captureKeyByte_of_lt _ (by decide)], ?_, rfl, rfl⟩
    exact (getElem_setSlot _ 0 _ 0 (by decide)).trans (bits_eq _)

/-- Settles O25: the phase check decides what happens, and in `Idle` the count of key bytes decides whether the instance
is constructed. -/
theorem initInEveryPhase : Obligations.InitInEveryPhase := by
  intro s d
  refine ⟨by cases d <;> rfl, fun hp hk => ?_, fun hp hk => ?_, fun hp => ?_, fun hp => ?_,
    fun hp hdir he hb => ⟨fun hk => ?_, fun hk => ?_⟩⟩
  · exact ⟨_, by rw [exec_init, whenLegal_acceptsKey_of_idle _ hp, construct_of_le d hk], rfl⟩
  · rw [exec_init, whenLegal_acceptsKey_of_idle _ hp, construct_of_lt d hk]
    rfl
  · rw [exec_init, whenLegal_acceptsKey_of_instance _ hp]
    rfl
  · rw [exec_init, whenLegal_of_fault _ _ hp]
  · refine ⟨_, by rw [exec_init, whenLegal_acceptsKey_of_idle _ hp, construct_of_le _ (by simp [hk])], ?_⟩
    simp only [status, he, hb, hk]
    rfl
  · refine ⟨_, by rw [exec_init, whenLegal_acceptsKey_of_idle _ hp, construct_of_lt _ (by simp [hk])], ?_⟩
    simp only [status, raise_phase, raise_dir, raise_ecode, raise_kcnt, raise_bcnt, hdir, hb, hk]
    rfl

end Sys2Proof.Machine
end

section
/-! PROOF. `KSCHED` phase by phase, and why it is optional: the data commands run the same helper first, and that helper
changes nothing the second time (41_key_schedule R77, R78). -/

namespace Sys2Proof.Machine

theorem exec_ksched_of_instance {s : State}
    (h : s.phase = .uninitialized ∨ s.phase = .keysScheduled ∨ s.phase = .ready) :
    exec .ksched s = .next (ensureSchedule s) := by
  rw [exec_ksched, whenLegal_hasInstance_of_instance _ h]

/-! ### A data command after the schedule -/

theorem ensureSchedule_phase_ne_uninitialized (s : State) : (ensureSchedule s).phase ≠ .uninitialized := by
  rcases ensureSchedule_cases s with ⟨_, e⟩ | ⟨h, e⟩
  · simp [e]
  · rwa [e]

theorem ensureSchedule_ensureSchedule (s : State) : ensureSchedule (ensureSchedule s) = ensureSchedule s :=
  ensureSchedule_of_ne (ensureSchedule_phase_ne_uninitialized s)

theorem ensureReady_ensureSchedule (s : State) : ensureReady (ensureSchedule s) = ensureReady s := by
  rw [ensureReady, ensureSchedule_ensureSchedule, ensureReady]

theorem acceptByte_ensureSchedule (b : Byte) (s : State) : acceptByte b (ensureSchedule s) = acceptByte b s := by
  simp only [acceptByte, ensureReady_ensureSchedule]

theorem finishMessage_ensureSchedule (s : State) : finishMessage (ensureSchedule s) = finishMessage s := by
  simp only [finishMessage, ensureReady_ensureSchedule]

/-- A data command cannot tell whether `KSCHED` ran before it. -/
theorem exec_data_ensureSchedule {s : State} (hp : s.phase = .uninitialized) {i : Instr}
    (hi : i = .final ∨ ∃ b, i = .datab b) : exec i (ensureSchedule s) = exec i s := by
  have hp' : (ensureSchedule s).phase = .keysScheduled := by rw [ensureSchedule_of_uninitialized hp]; rfl
  rcases hi with rfl | ⟨b, rfl⟩
  · rw [exec_final, exec_final, whenLegal_hasInstance_of_instance _ (.inr (.inl hp')),
      whenLegal_hasInstance_of_instance _ (.inl hp), finishMessage_ensureSchedule]
  · rw [exec_datab, exec_datab, whenLegal_hasInstance_of_instance _ (.inr (.inl hp')),
      whenLegal_hasInstance_of_instance _ (.inl hp), acceptByte_ensureSchedule]

/-! ### The statement -/

/-- The round keys the rule's example names (95_test_vectors section 3.1). -/
theorem ks_example_first_last :
    (ks 0x133457799BBCDFF1)[0] = 0x1B02EFFC7072#48 ∧ (ks 0x133457799BBCDFF1)[15] = 0xCB3D8B0E17F5#48 := by
  decide +kernel

/-- Settles O26: `KSCHED` is `EnsureSchedule` after its phase check, and a data command that follows answers the same
state as without it. -/
theorem kschedInEveryPhase : Obligations.KschedInEveryPhase := by
  intro s
  refine ⟨rfl, fun hp => ?_, fun hp => ?_, fun hp => ?_, fun hp => ?_, fun hp hkey hdir he hk hb => ?_,
    fun hp i t u v hi ht hu hv => ?_⟩
  · exact ⟨_, exec_ksched_of_instance (.inl hp), ensureSchedule_of_uninitialized hp⟩
  · rw [exec_ksched_of_instance (.inr hp), ensureSchedule_of_ne (by rcases hp with hp | hp <;> simp [hp])]
  · rw [exec_ksched, whenLegal_hasInstance_of_idle _ hp]
    rfl
  · rw [exec_ksched, whenLegal_of_fault _ _ hp]
  · refine ⟨_, exec_ksched_of_instance (.inl hp), ?_⟩
    rw [ensureSchedule_of_uninitialized hp]
    simp only [status, withWorkingOf, hkey, hdir, he, hk, hb]
    exact ⟨ks_example_first_last.1, ks_example_first_last.2, rfl⟩
  · rw [exec_ksched_of_instance (.inl hp)] at ht
    obtain rfl := Host.Outcome.next.inj ht
    rw [exec_data_ensureSchedule hp hi, hu] at hv
    obtain rfl := Host.Outcome.next.inj hv
    exact ⟨rfl, rfl, rfl, rfl, rfl, rfl⟩

end Sys2Proof.Machine
end

section
/-! PROOF. `F` bit by bit: what each stage puts at each index, from the diffusion back to the two arguments
(42_feistel_function R84 to R89). -/

namespace Sys2Proof.Machine

/-! ### One stage at a time -/

/-- Expansion and key mixing: block `q` takes nibble `q` of `r` with its two neighbouring bits (R84, R85). -/
theorem getMsbD_mixedBlock (r : Half) (k : RoundKey) (q : Fin 8) (j : Nat) (hj : j < 6) :
    (slice (xorVec (permute r tableE) k) (6 * q.val) 6).getMsbD j =
      (r.getMsbD ((4 * q.val + 31 + j) % 32) != k.getMsbD (6 * q.val + j)) := by
  have hidx : 6 * q.val + j < 48 := by omega
  rw [getMsbD_slice, decide_eq_true hj, Bool.true_and, getMsbD_xorVec, getMsbD_permute _ _ _ hidx,
    ← tableE_closed_form q ⟨j, hj⟩]

/-- The box reads the entry whose row and column are the block's (R85, R86). -/
theorem substitute_eq_entry (q : Fin 8) (b : BitVec 6) (row : Fin 4) (column : Fin 16)
    (hrow : row.val = (sboxRow b).val) (hcolumn : column.val = (sboxColumn b).val) :
    substitute q b = tableSBOX[q][row][column] := by
  obtain rfl := Fin.ext hrow
  obtain rfl := Fin.ext hcolumn
  rfl

/-- Nibble `q` of the substitution result is the value of box `q` (R86). -/
theorem getMsbD_substituteAll (x : BitVec 48) (q : Fin 8) (j : Nat) (hj : j / 4 = q.val) :
    (substituteAll x).getMsbD j = (substituteBlock x q).getMsbD (j % 4) := by
  have hlt : j < 32 := by omega
  have hq : Fin.ofNat 8 (j / 4) = q := Fin.ext (by rw [hj]; exact Nat.mod_eq_of_lt q.isLt)
  rw [substituteAll, getMsbD_vecOfBits, decide_eq_true hlt, Bool.true_and, hq]

/-- Output bit `i` is a bit of the value of the box whose nibble `P[i]` lies in (R88). -/
theorem getMsbD_roundF_eq_box_bit (r : Half) (k : RoundKey) (q : Fin 8) (i : Fin 32)
    (hi : (tableP[i]).val / 4 = q.val) : (roundF r k).getMsbD i.val =
      (substituteBlock (xorVec (permute r tableE) k) q).getMsbD ((tableP[i]).val % 4) :=
  (getMsbD_permute _ _ _ i.isLt).trans (getMsbD_substituteAll _ q _ hi)

/-! ### The arguments count only through their mix -/

theorem roundF_eq_of_mix_eq (r r' : Half) (k k' : RoundKey)
    (h : xorVec (permute r tableE) k = xorVec (permute r' tableE) k') : roundF r k = roundF r' k' := by
  rw [roundF, h, roundF]

/-- A vector of ones in either argument gives the same mix. -/
theorem roundF_ones_swap : roundF 0x00000000 0xFFFFFFFFFFFF = roundF 0xFFFFFFFF 0x000000000000 :=
  roundF_eq_of_mix_eq _ _ _ _ (by decide +kernel)

/-- Ones in both arguments cancel. -/
theorem roundF_ones_cancel : roundF 0xFFFFFFFF 0xFFFFFFFFFFFF = roundF 0x00000000 0x000000000000 :=
  roundF_eq_of_mix_eq _ _ _ _ (by decide +kernel)

/-- `F` is no bijection of the right half. -/
theorem roundF_collision : roundF 0x0000005A 0x000000000000 = roundF 0x00000588 0x000000000000 := by decide +kernel

/-! ### The worked example of R89, stage by stage -/

theorem example_expansion : permute 0xF0AAF0AA#32 tableE = 0x7A15557A1555#48 := by decide +kernel

theorem example_mix : xorVec 0x7A15557A1555#48 0x1B02EFFC7072#48 = 0x6117BA866527#48 := by decide +kernel

/-- Row, column and value of each of the eight blocks. -/
theorem example_boxes :
    (List.finRange 8).map (fun i => (sboxRow (slice 0x6117BA866527#48 (6 * i.val) 6),
        sboxColumn (slice 0x6117BA866527#48 (6 * i.val) 6), substituteBlock 0x6117BA866527#48 i))
      = [(0, 12, 5), (1, 8, 12), (0, 15, 8), (2, 13, 2), (3, 0, 11), (2, 3, 5), (0, 10, 9), (3, 3, 7)] := by
  decide +kernel

theorem example_substitution : substituteAll 0x6117BA866527#48 = 0x5C82B597#32 := by decide +kernel

theorem example_diffusion : permute 0x5C82B597#32 tableP = 0x234AA9BB#32 := by decide +kernel

theorem example_roundF : roundF 0xF0AAF0AA#32 0x1B02EFFC7072#48 = 0x234AA9BB#32 := by
  rw [roundF, example_expansion, example_mix, example_substitution, example_diffusion]

/-- Settles O17: output bit `i` is traced through `P`, the boxes, the key mixing and `E`, one lemma a stage; equal mixes
give equal results because the later stages read nothing else. -/
theorem roundFunctionBitByBit : Obligations.RoundFunctionBitByBit := by
  refine ⟨⟨example_roundF, by decide +kernel, by decide +kernel, roundF_ones_swap, roundF_ones_cancel,
    example_expansion, example_mix, example_boxes, example_substitution, roundF_collision⟩, roundF_eq_of_mix_eq, ?_⟩
  intro r k b q row column hrow hcolumn
  have hbit (j : Nat) (hj : j < 6) :
      b q j = ((slice (xorVec (permute r tableE) k) (6 * q.val) 6).getMsbD j).toNat :=
    congrArg Bool.toNat (getMsbD_mixedBlock r k q j hj).symm
  rw [hbit 0 (by decide), hbit 5 (by decide)] at hrow
  rw [hbit 1 (by decide), hbit 2 (by decide), hbit 3 (by decide), hbit 4 (by decide)] at hcolumn
  intro i hi
  rw [getMsbD_roundF_eq_box_bit r k q i hi, substituteBlock, substitute_eq_entry q _ row column hrow hcolumn]

end Sys2Proof.Machine
end

section
/-! PROOF. The rounds of `BLOCK` bit by bit, the round key each direction takes, and the final swap
(43_block_datapath R94 to R97). -/

namespace Sys2Proof.Machine

theorem blockHalves_zero (b : Block) (rk : RoundKeys) (d : Direction) : blockHalves b rk d 0
    = (slice (permute b tableIP) 0 32, slice (permute b tableIP) 32 32) := rfl

/-- The split: the left half is the first half of the permuted block (R94). -/
theorem getMsbD_blockHalves_zero (b : Block) (rk : RoundKeys) (d : Direction) (j : Fin 32) :
    (blockHalves b rk d 0).1.getMsbD j.val = b.getMsbD tableIP[j.val]
      ∧ (blockHalves b rk d 0).2.getMsbD j.val = b.getMsbD tableIP[32 + j.val] := by
  have hright : 32 + j.val < 64 := by omega
  simp only [blockHalves_zero, getMsbD_slice, Nat.zero_add, decide_eq_true j.isLt, Bool.true_and]
  exact ⟨getMsbD_permute _ _ _ (by omega), getMsbD_permute _ _ _ hright⟩

theorem blockHalves_succ (b : Block) (rk : RoundKeys) (d : Direction) (i : Nat) :
    blockHalves b rk d (i + 1) = feistelRound (blockHalves b rk d i) (orderedKey rk d i) := rfl

theorem feistelRound_fst (p : Half × Half) (k : RoundKey) : (feistelRound p k).1 = p.2 := rfl

theorem getMsbD_feistelRound_snd (p : Half × Half) (k : RoundKey) (j : Nat) :
    (feistelRound p k).2.getMsbD j = (p.1.getMsbD j != (roundF p.2 k).getMsbD j) :=
  getMsbD_xorVec _ _ j

/-- Encryption takes the round keys forward, decryption from the last to the first (R96). -/
theorem orderedKey_of_lt (rk : RoundKeys) (d : Direction) (i : Nat) (hi : i < 16) :
    orderedKey rk d i = if d = .encrypt then rk[i] else rk[15 - i] := by
  cases d with
  | encrypt => exact getD_roundKeys rk i hi
  | decrypt => exact getD_roundKeys rk (15 - i) (by omega)

/-- The output reads the right half for the places `FP` takes below 32, the left half for the others (R97). -/
theorem getMsbD_block (b : Block) (rk : RoundKeys) (d : Direction) (j : Fin 64) :
    (block b rk d).getMsbD j.val = if (tableFP[j]).val < 32
      then (blockHalves b rk d 16).2.getMsbD tableFP[j]
      else (blockHalves b rk d 16).1.getMsbD (tableFP[j] - 32) := by
  rw [block, getMsbD_permute _ _ _ j.isLt, BitVec.getMsbD_append]
  by_cases h : (tableFP[j]).val < 32
  · rw [if_pos h]
    exact if_neg (Nat.not_le.mpr h)
  · rw [if_neg h]
    exact if_pos (Nat.not_lt.mp h)

/-- Settles O18: the split, one round and the final swap, a lemma each bit by bit; the examples by evaluation. -/
theorem roundsFollowTheFormula : Obligations.RoundsFollowTheFormula := by
  refine ⟨fun b rk d => ⟨getMsbD_blockHalves_zero b rk d, fun i hi => ?_, getMsbD_block b rk d⟩, fun rk d => ?_,
    by decide +kernel, by decide +kernel⟩
  · rw [blockHalves_succ, ← orderedKey_of_lt rk d i hi]
    exact ⟨feistelRound_fst _ _, fun j _ => getMsbD_feistelRound_snd _ _ j⟩
  · rw [blockHalves_zero]
    decide +kernel

end Sys2Proof.Machine
end

section
/-! PROOF. `BLOCK` undone: with the round keys in reverse order the rounds run backwards on the swapped halves
(43_block_datapath R99). -/

namespace Sys2Proof.Machine

/-- The rounds depend on the round keys only in the order they are taken. -/
theorem blockHalves_congr (b : Block) (rk : RoundKeys) (d e : Direction)
    (h : ∀ i, i < 16 → orderedKey rk d i = orderedKey rk e i) (i : Nat) (hi : i ≤ 16) :
    blockHalves b rk d i = blockHalves b rk e i := by
  induction i with
  | zero => rfl
  | succ i ih => rw [blockHalves_succ, blockHalves_succ, ih (by omega), h i (by omega)]

/-- The second run starts from the swapped halves the first one ends with, as `FP` and `IP` cancel. -/
theorem blockHalves_block_zero (b : Block) (rk : RoundKeys) (d e : Direction) :
    blockHalves (block b rk d) rk e 0 = (blockHalves b rk d 16).swap := by
  rw [blockHalves_zero, block, permute_tableFP_tableIP, slices_append, Prod.swap]

/-- With the keys reversed, round `i` of the second run undoes round `15 - i` of the first. -/
theorem blockHalves_block_of_reversed (b : Block) (rk : RoundKeys) (d e : Direction)
    (h : ∀ i, i < 16 → orderedKey rk e i = orderedKey rk d (15 - i)) (i : Nat) (hi : i ≤ 16) :
    blockHalves (block b rk d) rk e i = (blockHalves b rk d (16 - i)).swap := by
  induction i with
  | zero => exact blockHalves_block_zero b rk d e
  | succ i ih =>
    have hround : blockHalves b rk d (16 - i)
        = feistelRound (blockHalves b rk d (15 - i)) (orderedKey rk d (15 - i)) := by
      rw [← blockHalves_succ, show 15 - i + 1 = 16 - i by omega]
    rw [blockHalves_succ, ih (by omega), h i (by omega), hround, feistelRound_swap,
      show 16 - (i + 1) = 15 - i by omega]

theorem block_block_of_reversed (b : Block) (rk : RoundKeys) (d e : Direction)
    (h : ∀ i, i < 16 → orderedKey rk e i = orderedKey rk d (15 - i)) : block (block b rk d) rk e = b := by
  rw [block, blockHalves_block_of_reversed b rk d e h 16 le_rfl]
  exact (congrArg (permute · tableFP) (append_slices (m := 32) (n := 32) _)).trans (permute_tableIP_tableFP b)

theorem block_decrypt_encrypt (b : Block) (rk : RoundKeys) : block (block b rk .encrypt) rk .decrypt = b :=
  block_block_of_reversed b rk .encrypt .decrypt fun i _ => orderedKey_decrypt rk i

theorem block_encrypt_decrypt (b : Block) (rk : RoundKeys) : block (block b rk .decrypt) rk .encrypt = b :=
  block_block_of_reversed b rk .decrypt .encrypt fun i hi => by
    rw [orderedKey_decrypt, Nat.sub_sub_self (by omega)]

/-- Sixteen equal round keys read the same in either order. -/
theorem block_encrypt_eq_decrypt_of_equal_keys (b : Block) (rk : RoundKeys)
    (h : ∀ (n : Nat) (hn : n < 16), rk[n] = rk[0]) : block b rk .encrypt = block b rk .decrypt := by
  have horder (i : Nat) (hi : i < 16) : orderedKey rk .encrypt i = orderedKey rk .decrypt i := by
    rw [orderedKey_of_lt _ _ _ hi, orderedKey_of_lt _ _ _ hi, if_pos rfl, if_neg (by decide), h i hi,
      h (15 - i) (by omega)]
  rw [block, block, blockHalves_congr b rk _ _ horder 16 le_rfl]

/-- Settles O19: the reversed rounds undo each other one by one, whichever direction runs first. -/
theorem blockInversion : Obligations.BlockInversion := fun b rk =>
  ⟨block_decrypt_encrypt b rk, block_encrypt_decrypt b rk, fun hkeys =>
    have hsame := fun c => block_encrypt_eq_decrypt_of_equal_keys c rk hkeys
    ⟨hsame b, (hsame _).trans (block_decrypt_encrypt b rk)⟩⟩

end Sys2Proof.Machine
end

section
/-! PROOF. A block is its eight bytes, the first at the lowest indices (43_block_datapath R101, 20_memory R35). -/

namespace Sys2Proof.Machine

/-- Cutting part of a vector out is dividing its number by the weight of what stands after the part. -/
theorem slice_eq_ofNat_div {n : Nat} (v : BitVec n) (start len : Nat) (h : start + len ≤ n) :
    slice v start len = BitVec.ofNat len (v.toNat / 2 ^ (n - (start + len))) :=
  vec_ext fun i hi => by
    have hplace : len - 1 - i + (n - (start + len)) = n - 1 - (start + i) := by omega
    have hsource : start + i < n := by omega
    have htarget : len - 1 - i < len := by omega
    rw [getMsbD_slice, BitVec.getMsbD_eq_getLsbD, BitVec.getMsbD_eq_getLsbD, BitVec.getLsbD_ofNat,
      Nat.testBit_div_two_pow, hplace, BitVec.getLsbD]
    simp [hi, hsource, htarget]

/-- Two blocks with the same eight bytes are equal. -/
theorem block_ext_bytes {a b : Block} (h : ∀ k, k < 8 → slice a (8 * k) 8 = slice b (8 * k) 8) : a = b :=
  vec_ext fun i hi => by
    have hbit := congrArg (BitVec.getMsbD · (i % 8)) (h (i / 8) (by omega))
    have hj : i % 8 < 8 := by omega
    simpa [hj, Nat.div_add_mod] using hbit

theorem slice_blockOfBytes (m : Nat → Byte) (k : Nat) (hk : k < 8) : slice (blockOfBytes m) (8 * k) 8 = m k :=
  vec_ext fun j hj => by
    rw [getMsbD_slice, decide_eq_true hj, Bool.true_and, getMsbD_blockOfBytes m k j hk hj]

theorem joinSlots_eq_blockOfBytes_of_bits (v : Slots) (m : Nat → Byte)
    (h : ∀ (k : Nat) (hk : k < 8), v[k] = bits (m k)) : joinSlots v = blockOfBytes m :=
  block_ext_bytes fun k hk => by rw [slice_joinSlots v k hk, h k hk, bits_eq, slice_blockOfBytes m k hk]

/-- The `k`-th byte to leave is the digit of weight `256 ^ (7 - k)` of the block's number. -/
theorem getElem?_blockBytes_toNat (o : Block) (k : Nat) (hk : k < 8) :
    (blockBytes o)[k]? = some (BitVec.ofNat 8 (o.toNat / 256 ^ (7 - k))) := by
  have hweight : 2 ^ (64 - (8 * k + 8)) = 256 ^ (7 - k) := by
    rw [show 64 - (8 * k + 8) = 8 * (7 - k) by omega, Nat.pow_mul]
  rw [getElem?_blockBytes o k hk, slice_eq_ofNat_div o _ _ (by omega), hweight]

theorem blockOfBytes_blockBytes (o : Block) : blockOfBytes (fun k => (blockBytes o).getD k 0) = o :=
  block_ext_bytes fun k hk => by
    rw [slice_blockOfBytes _ k hk, List.getD_eq_getElem?_getD, getElem?_blockBytes o k hk, Option.getD_some]

/-- Settles O22: two blocks agree when their eight bytes do, which gives the block from its slots and from the bytes it
leaves as; the example by evaluation. -/
theorem blockLeavesFirstByteFirst : Obligations.BlockLeavesFirstByteFirst := by
  refine ⟨fun v m h => ?_, fun o s => ⟨blockBytes_length o, getElem?_blockBytes_toNat o, blockOfBytes_blockBytes o,
    emitBlock_eq o s⟩, by decide +kernel⟩
  have hblock := joinSlots_eq_blockOfBytes_of_bits v m h
  refine ⟨hblock, fun k j hk hj => ?_⟩
  rw [hblock, getMsbD_blockOfBytes m k j hk hj, getMsbD_byte_eq_getLsbD _ j hj]

end Sys2Proof.Machine
end

section
/-! PROOF. What `EnsureSchedule` and `EnsureReady` leave in an instance that meets the invariants (41_key_schedule R78,
44_driver_commands R106). -/

namespace Sys2Proof.Machine

/-- The cached round keys are the schedule of `KEY` (10_state R26, item 4), so both helpers end with that schedule. -/
theorem roundKeysInUse_eq_ks {s : State} (hinv : EngineInv s)
    (hp : s.phase = .uninitialized ∨ s.phase = .keysScheduled ∨ s.phase = .ready) :
    roundKeysInUse s = ks (joinSlots s.key) := by
  by_cases h : s.phase = .uninitialized
  · exact if_pos h
  · exact (if_neg h).trans (hinv.schedule (hp.resolve_left h))

theorem ensureSchedule_eq_withWorkingOf (s : State) :
    ensureSchedule s = withWorkingOf (ensureSchedule s) { s with
      rk := roundKeysInUse s, phase := if s.phase = .uninitialized then .keysScheduled else s.phase } := by
  by_cases h : s.phase = .uninitialized
  · simpa only [roundKeysInUse, if_pos h] using ensureSchedule_of_uninitialized h
  · simp only [ensureSchedule_of_ne h, roundKeysInUse, if_neg h, withWorkingOf]

theorem ensureReady_eq_withWorkingOf (s : State) :
    ensureReady s = withWorkingOf (ensureReady s) { s with rk := roundKeysInUse s, phase := .ready } := by
  simpa only [withWorkingOf, ensureReady_l, ensureReady_r, ensureReady_rnd] using ensureReady_eq s

/-- Settles O23: the helpers leave the round keys in use, which the invariants make the schedule of `KEY`. -/
theorem helpersPrepareTheInstance : Obligations.HelpersPrepareTheInstance := by
  intro s hinv hp
  rw [← roundKeysInUse_eq_ks hinv hp]
  exact ⟨ensureSchedule_eq_withWorkingOf s, ensureSchedule_of_ne, ensureReady_eq_withWorkingOf s⟩

end Sys2Proof.Machine
end

section
/-! PROOF. `DATAB` and `FINAL` phase by phase: in an instance both run `EnsureReady` and then either complete the block, whose
slots are the ones stored so far and the byte or the padding of this step, or do not (44_driver_commands R107, R108). -/

namespace Sys2Proof.Machine

theorem exec_datab_of_instance (b : Byte) {s : State}
    (h : s.phase = .uninitialized ∨ s.phase = .keysScheduled ∨ s.phase = .ready) :
    exec (.datab b) s = .next (acceptByte b s) := by
  rw [exec_datab, whenLegal_hasInstance_of_instance _ h]

theorem exec_final_of_instance {s : State}
    (h : s.phase = .uninitialized ∨ s.phase = .keysScheduled ∨ s.phase = .ready) :
    exec .final s = .next (finishMessage s) := by
  rw [exec_final, whenLegal_hasInstance_of_instance _ h]

/-! ### A complete block -/

/-- The state after a data command that completes the block `full`; what holds no value afterwards is as in `t`. -/
def blockEmitted (full : Slots) (s t : State) : State :=
  withWorkingOf t { s with
    out := s.out ++ blockBytes (block (joinSlots full) (roundKeysInUse s) s.dir)
    rk := roundKeysInUse s
    phase := .ready
    bcnt := 0#3
    ibuf := t.ibuf }

/-- The working registers of the schedule are those `EnsureReady` leaves, the others those of the transform. -/
theorem completeBlock_ensureReady (full : Slots) (s : State) :
    completeBlock { ensureReady s with ibuf := full }
      = blockEmitted full s (completeBlock { ensureReady s with ibuf := full }) := by
  rw [completeBlock_eq, ensureReady_eq]
  rfl

theorem storeMessageByte_ensureReady (b : Byte) (s : State) : storeMessageByte b (ensureReady s) =
    { ensureReady s with ibuf := setSlot s.ibuf s.bcnt.toNat (bits b) } := by
  simp only [storeMessageByte, ensureReady_ibuf, ensureReady_bcnt]

theorem padBlock_ensureReady (s : State) : padBlock (ensureReady s) =
    { ensureReady s with ibuf := padSlots s.ibuf s.bcnt.toNat (8 - s.bcnt.toNat) } := by
  simp only [padBlock, ensureReady_ibuf, ensureReady_bcnt]

/-- The eighth byte lands in the last slot. -/
theorem setSlot_seven_eq {v full : Slots} {x : BitVec 8}
    (h : ∀ (k : Nat) (hk : k < 8), full[k] = if k = 7 then x else v[k]) : setSlot v 7 x = full :=
  Vector.ext fun k hk => by simp only [getElem_setSlot, h k hk, eq_comm]

/-- The padding fills every slot from `n` on. -/
theorem padSlots_eq {v full : Slots} {n : Nat}
    (h : ∀ (k : Nat) (hk : k < 8), full[k] = if k < n then v[k] else bits padByte) : padSlots v n (8 - n) = full :=
  Vector.ext fun k hk => by
    rw [getElem_padSlots _ _ _ _ hk, h k hk]
    by_cases hn : k < n
    · rw [if_pos hn, if_neg (by omega)]
    · rw [if_neg hn, if_pos (by omega)]

theorem exec_datab_of_seven (b : Byte) {s : State}
    (hp : s.phase = .uninitialized ∨ s.phase = .keysScheduled ∨ s.phase = .ready) (hb : s.bcnt = 7#3) (full : Slots)
    (hfull : ∀ (k : Nat) (hk : k < 8), full[k] = if k = 7 then bits b else s.ibuf[k]) :
    ∃ t, exec (.datab b) s = .next t ∧ t = blockEmitted full s t := by
  refine ⟨_, exec_datab_of_instance b hp, ?_⟩
  obtain ⟨_, e⟩ | ⟨hne, _⟩ := acceptByte_cases b s
  · rw [e, storeMessageByte_ensureReady, hb, BitVec.toNat_ofNat, setSlot_seven_eq hfull]
    exact completeBlock_ensureReady full s
  · exact absurd hb hne

theorem exec_final_of_ne_zero {s : State}
    (hp : s.phase = .uninitialized ∨ s.phase = .keysScheduled ∨ s.phase = .ready) (hb : s.bcnt ≠ 0#3) (full : Slots)
    (hfull : ∀ (k : Nat) (hk : k < 8), full[k] = if k < s.bcnt.toNat then s.ibuf[k] else bits 0x20#8) :
    ∃ t, exec .final s = .next t ∧ t = blockEmitted full s t := by
  refine ⟨_, exec_final_of_instance hp, ?_⟩
  obtain ⟨_, e⟩ | ⟨hz, _⟩ := finishMessage_cases s
  · rw [e, padBlock_ensureReady, padSlots_eq hfull]
    exact completeBlock_ensureReady full s
  · exact absurd hz hb

/-! ### No complete block -/

theorem exec_datab_of_ne_seven (b : Byte) {s : State}
    (hp : s.phase = .uninitialized ∨ s.phase = .keysScheduled ∨ s.phase = .ready) (hb : s.bcnt ≠ 7#3) :
    exec (.datab b) s = .next { ensureReady s with
      ibuf := setSlot s.ibuf s.bcnt.toNat (bits b), bcnt := s.bcnt + 1#3 } := by
  rw [exec_datab_of_instance b hp]
  obtain ⟨h, _⟩ | ⟨_, e⟩ := acceptByte_cases b s
  · exact absurd h hb
  · rw [e, storeMessageByte_ensureReady]

/-- A message whose length is a multiple of 8 gets no padding block. -/
theorem exec_final_of_zero {s : State}
    (hp : s.phase = .uninitialized ∨ s.phase = .keysScheduled ∨ s.phase = .ready) (hb : s.bcnt = 0#3) :
    exec .final s = .next (ensureReady s) := by
  rw [exec_final_of_instance hp]
  obtain ⟨h, _⟩ | ⟨_, e⟩ := finishMessage_cases s
  · exact absurd hb h
  · rw [e]

/-! ### The statements -/

/-- The block of the example of R107. -/
def exampleBlock : Slots := #v[0x01, 0x23, 0x45, 0x67, 0x89, 0xAB, 0xCD, 0xEF]

/-- The padded block of the example of R108: "Hi" and six spaces. -/
def examplePaddedBlock : Slots := #v[0x48, 0x69, 0x20, 0x20, 0x20, 0x20, 0x20, 0x20]

theorem blockBytes_exampleBlock :
    blockBytes (block (joinSlots exampleBlock) (ks 0x133457799BBCDFF1) .encrypt)
      = [0x85, 0xE8, 0x13, 0x54, 0x0F, 0x0A, 0xB4, 0x05] := by
  decide +kernel

theorem blockBytes_examplePaddedBlock :
    blockBytes (block (joinSlots examplePaddedBlock) (ks 0x38627974656B6579) .encrypt)
      = [0xD3, 0xB3, 0x64, 0xBB, 0x30, 0xC0, 0x04, 0x9B] := by
  decide +kernel

/-- In `Ready` the emitted bytes use the cached round keys. -/
theorem blockEmitted_out_of_ready (full : Slots) {s : State} (t : State) (hp : s.phase = .ready) :
    (blockEmitted full s t).out = s.out ++ blockBytes (block (joinSlots full) s.rk s.dir) := by
  simp only [blockEmitted, withWorkingOf, roundKeysInUse, hp, reduceCtorEq, if_false]

/-- Settles O27: the phase check decides what happens, and in an instance `BCNT` decides whether the byte completes the
block. -/
theorem databInEveryPhase : Obligations.DatabInEveryPhase := by
  intro s b
  refine ⟨rfl, fun hp hb => ?_, fun hp hb => exec_datab_of_seven b hp hb, fun hp => ?_, fun hp => ?_,
    fun hp hb hrk hdir hslots => ?_⟩
  · refine ⟨_, exec_datab_of_ne_seven b hp hb, ?_, fun k hk => ?_⟩
    · rw [ensureReady_eq_withWorkingOf]
      rfl
    · simp only [getElem_setSlot, eq_comm]
  · rw [exec_datab, whenLegal_hasInstance_of_idle _ hp]
    rfl
  · rw [exec_datab, whenLegal_of_fault _ _ hp]
  · have hfull : ∀ (k : Nat) (hk : k < 8), exampleBlock[k] = if k = 7 then bits 0xEF else s.ibuf[k] := by
      intro k hk
      rw [bits_eq]
      obtain h | rfl : k < 7 ∨ k = 7 := by omega
      · rw [if_neg h.ne, hslots k h]
        interval_cases k <;> rfl
      · rfl
    obtain ⟨t, ht, e⟩ := exec_datab_of_seven 0xEF (.inr (.inr hp)) hb exampleBlock hfull
    refine ⟨t, ht, by rw [e]; rfl, ?_⟩
    rw [e, blockEmitted_out_of_ready _ _ hp, hrk, hdir, blockBytes_exampleBlock]

/-- Settles O28: the phase check decides what happens, and in an instance `BCNT` decides whether there is a block to pad. -/
theorem finalInEveryPhase : Obligations.FinalInEveryPhase := by
  intro s
  refine ⟨rfl, fun hp hb => exec_final_of_ne_zero hp hb,
    fun hp hb => ⟨_, exec_final_of_zero hp hb, ensureReady_eq_withWorkingOf s⟩, fun hp => ?_, fun hp => ?_,
    fun hp hb hrk hdir h0 h1 => ?_⟩
  · rw [exec_final, whenLegal_hasInstance_of_idle _ hp]
    rfl
  · rw [exec_final, whenLegal_of_fault _ _ hp]
  · have hfull : ∀ (k : Nat) (hk : k < 8),
        examplePaddedBlock[k] = if k < s.bcnt.toNat then s.ibuf[k] else bits 0x20#8 := by
      intro k hk
      rw [hb, bits_eq]
      interval_cases k
      · exact h0.symm
      · exact h1.symm
      all_goals rfl
    obtain ⟨t, ht, e⟩ := exec_final_of_ne_zero (.inr (.inr hp)) (by simp [hb]) examplePaddedBlock hfull
    refine ⟨t, ht, by rw [e]; rfl, ?_⟩
    rw [e, blockEmitted_out_of_ready _ _ hp, hrk, hdir, blockBytes_examplePaddedBlock]

end Sys2Proof.Machine
end

section
/-! PROOF. The step takes one word from the port; checking the fault phase before the encoding gives every word that is a
command the command's own rule, because the rule ignores in `Fault` what the check ignores (44_driver_commands R105). -/

namespace Sys2Proof.Machine

/-! ### Commands in `Fault` -/

/-- In `Fault` every command but `RESET` is ignored (60_exceptions R124). -/
theorem exec_of_fault {i : Instr} {s : State} (hi : i ≠ .reset) (h : s.phase = .fault) : exec i s = .next s := by
  cases i with
  | reset => exact absurd rfl hi
  | keyb b => rw [exec_keyb, whenLegal_of_fault _ _ h]
  | init d => rw [exec_init, whenLegal_of_fault _ _ h]
  | ksched => rw [exec_ksched, whenLegal_of_fault _ _ h]
  | datab b => rw [exec_datab, whenLegal_of_fault _ _ h]
  | final => rw [exec_final, whenLegal_of_fault _ _ h]

/-! ### The word of a step -/

theorem stepWord_of_fault {w : CmdWord} {s : State} (hw : w ≠ 0x1000#16) (h : s.phase = .fault) :
    stepWord w s = .next s := by
  rw [stepWord, if_pos h, if_neg hw]

/-- A word that is a command runs it in every phase, `Fault` included. -/
theorem stepWord_command {w : CmdWord} {i : Instr} (s : State) (h : decode w = .command i) : stepWord w s = exec i s := by
  by_cases hf : s.phase = .fault
  · by_cases hw : w = 0x1000#16
    · obtain rfl : i = .reset := Decoded.command.inj (h.symm.trans ((decode_eq_reset_iff w).mpr hw))
      rw [stepWord, if_pos hf, if_pos hw]
    · have hi : i ≠ .reset := fun e => hw ((decode_eq_reset_iff w).mp (e ▸ h))
      rw [stepWord_of_fault hw hf, exec_of_fault hi hf]
  · simp only [stepWord, if_neg hf, h]

/-- The words that are no command raise `IllegalCmd`, or are ignored in `Fault`; the others run their command. -/
theorem stepWord_answers (w : CmdWord) (s : State) : ∃ t, stepWord w s = .next t := by
  cases h : decode w with
  | illegal why =>
    rw [stepWord_illegal s w why h]
    split <;> exact ⟨_, rfl⟩
  | command i =>
    rw [stepWord_command s h]
    exact exec_answers i s

/-- Every step has an outcome: the engine never hangs (44_driver_commands R105). -/
theorem step_answers (s : State) : ∃ t, step s = .next t := by
  cases hin : s.inputs with
  | nil => exact ⟨s, by simp only [step, advance, hin]⟩
  | cons a rest =>
    cases a with
    | command w =>
      rw [step_command s w rest hin]
      exact stepWord_answers w _
    | assertReset => exact ⟨resetEngine { s with inputs := rest }, by simp only [step, advance, hin, perform]⟩

/-- Settles O32: a command's word runs it in every phase, and an illegal word is refused unless `Fault` ignores it. -/
theorem stepRunsTheDecodedCommand : Obligations.StepRunsTheDecodedCommand := by
  refine ⟨fun s w rest hin => ?_, step_answers⟩
  rw [step_command s w rest hin]
  refine ⟨fun i hi => stepWord_command _ hi, fun _ hw => stepWord_command _ ((decode_eq_reset_iff w).mpr hw),
    fun hf hw => stepWord_of_fault hw hf, fun why hf hd => ?_⟩
  rw [stepWord_illegal _ w why hd, if_neg hf]
  rfl

end Sys2Proof.Machine
end

section
/-! PROOF. `RESET` in every phase, and what the other commands leave to it: a fault, and the key and the direction of an
instance (44_driver_commands R109). -/

namespace Sys2Proof.Machine

theorem status_resetEngine (s : State) : status (resetEngine s) = 0x0000#16 := by
  rw [status, resetEngine_phase, resetEngine_dir, resetEngine_ecode, resetEngine_kcnt, resetEngine_bcnt]
  rfl

@[simp] theorem ensureSchedule_key (s : State) : (ensureSchedule s).key = s.key := by
  rcases ensureSchedule_cases s with ⟨_, e⟩ | ⟨_, e⟩ <;> rw [e]

@[simp] theorem ensureSchedule_dir (s : State) : (ensureSchedule s).dir = s.dir := by
  rcases ensureSchedule_cases s with ⟨_, e⟩ | ⟨_, e⟩ <;> rw [e]

@[simp] theorem acceptByte_key (b : Byte) (s : State) : (acceptByte b s).key = s.key := by
  rcases acceptByte_cases b s with ⟨_, e⟩ | ⟨_, e⟩ <;> simp [e]

@[simp] theorem acceptByte_dir (b : Byte) (s : State) : (acceptByte b s).dir = s.dir := by
  rcases acceptByte_cases b s with ⟨_, e⟩ | ⟨_, e⟩ <;> simp [e]

@[simp] theorem finishMessage_key (s : State) : (finishMessage s).key = s.key := by
  rcases finishMessage_cases s with ⟨_, e⟩ | ⟨_, e⟩ <;> simp [e]

@[simp] theorem finishMessage_dir (s : State) : (finishMessage s).dir = s.dir := by
  rcases finishMessage_cases s with ⟨_, e⟩ | ⟨_, e⟩ <;> simp [e]

/-- In an instance `KEYB` and `INIT` only raise, and the other commands write neither register. -/
theorem exec_keeps_key_dir {i : Instr} {s u : State} (h : exec i s = .next u) (hi : i ≠ .reset)
    (hp : hasInstance s.phase = true) : u.key = s.key ∧ u.dir = s.dir := by
  have hf : s.phase ≠ .fault := fun e => by simp [hasInstance, e] at hp
  have hidle : s.phase ≠ .idle := fun e => by simp [hasInstance, e] at hp
  rcases exec_cases i s u h hf with ⟨e, _⟩ | ⟨_, rfl⟩ | ⟨_, _, e, _⟩ | ⟨_, _, e, _⟩ | ⟨_, _, rfl⟩ | ⟨b, _, _, rfl⟩ |
    ⟨_, _, rfl⟩
  · exact absurd e hi
  · exact ⟨rfl, rfl⟩
  · exact absurd e hidle
  · exact absurd e hidle
  · exact ⟨ensureSchedule_key s, ensureSchedule_dir s⟩
  · exact ⟨acceptByte_key b s, acceptByte_dir b s⟩
  · exact ⟨finishMessage_key s, finishMessage_dir s⟩

/-- Settles O29: `RESET` is `resetEngine` in every phase, with no phase check in front of it. -/
theorem resetInEveryPhase : Obligations.ResetInEveryPhase := by
  refine ⟨rfl, fun s => ⟨resetEngine s, rfl, rfl, rfl, rfl, rfl, rfl, status_resetEngine s, rfl, rfl,
    fun i u hi hu => ⟨fun hf => ?_, fun hp => exec_keeps_key_dir hu hi ((hasInstance_iff _).mpr hp)⟩⟩⟩
  exact (Host.Outcome.next.inj ((exec_of_fault hi hf).symm.trans hu)).symm

end Sys2Proof.Machine
end

section
/-! PROOF. The state table, read along its rows for what a command's own effect leaves and along its failing cells for the
fault each raises (44_driver_commands R104). -/

namespace Sys2Proof.Machine

/-! ### The table, by the cases of `exec` -/

theorem tablePhaseAfter_reset (full : Bool) (p : Phase) : tablePhaseAfter full p .reset = .idle := by
  cases p <;> rfl

theorem tablePhaseAfter_of_fault (full : Bool) {i : Instr} (hi : i ≠ .reset) :
    tablePhaseAfter full .fault i = .fault := by
  cases i with
  | reset => exact absurd rfl hi
  | keyb _ | init _ | ksched | datab _ | final => rfl

/-- The cells of a key command outside `Idle`. -/
theorem table_of_key_rejected (full : Bool) {p : Phase} {i : Instr} (hp : acceptsKey p = false)
    (hi : (∃ b, i = .keyb b) ∨ ∃ d, i = .init d) :
    tablePhaseAfter full p i = .fault ∧ tableFault p i = .badSequence := by
  cases p with
  | idle => cases hp
  | uninitialized | keysScheduled | ready | fault => rcases hi with ⟨_, rfl⟩ | ⟨_, rfl⟩ <;> exact ⟨rfl, rfl⟩

/-- The cells of the other commands without an instance. -/
theorem table_of_instance_rejected (full : Bool) {p : Phase} {i : Instr} (hp : hasInstance p = false)
    (hi : i = .ksched ∨ (∃ b, i = .datab b) ∨ i = .final) :
    tablePhaseAfter full p i = .fault ∧ tableFault p i = .badSequence := by
  cases p with
  | idle | fault => rcases hi with rfl | ⟨_, rfl⟩ | rfl <;> exact ⟨rfl, rfl⟩
  | uninitialized | keysScheduled | ready => cases hp

theorem tablePhaseAfter_ksched (full : Bool) {p : Phase} (hp : hasInstance p = true) :
    tablePhaseAfter full p .ksched = if p = .uninitialized then .keysScheduled else p := by
  rcases (hasInstance_iff p).mp hp with rfl | rfl | rfl <;> rfl

theorem tablePhaseAfter_data (full : Bool) {p : Phase} {i : Instr} (hp : hasInstance p = true)
    (hi : (∃ b, i = .datab b) ∨ i = .final) : tablePhaseAfter full p i = .ready := by
  rcases (hasInstance_iff p).mp hp with rfl | rfl | rfl <;> rcases hi with ⟨_, rfl⟩ | rfl <;> rfl

/-! ### A command and its cell -/

theorem ensureSchedule_phase (s : State) :
    (ensureSchedule s).phase = if s.phase = .uninitialized then .keysScheduled else s.phase :=
  congrArg State.phase (ensureSchedule_eq_withWorkingOf s)

/-- `INIT` in `Idle`, the one cell with a condition: up to 8 key bytes, "at least 8" is "exactly 8". -/
theorem construct_follows_table (d : Direction) {s : State} (hk : s.kcnt ≤ 8#4) (hp : s.phase = .idle) :
    (construct d s).phase = tablePhaseAfter (s.kcnt == 8#4) s.phase (.init d)
      ∧ ((construct d s).phase = .fault → (construct d s).ecode = tableFault s.phase (.init d)) := by
  rw [hp]
  rcases construct_cases d s with ⟨h, e⟩ | ⟨h, e⟩ <;> rw [e]
  · have hne : (s.kcnt == 8#4) = false := beq_eq_false_iff_ne.mpr (BitVec.ne_of_lt h)
    rw [hne]
    exact ⟨rfl, fun _ => rfl⟩
  · have heq : s.kcnt = 8#4 := BitVec.le_antisymm hk h
    rw [heq]
    exact ⟨rfl, fun c => by cases c⟩

theorem exec_follows_table {i : Instr} {s t : State} (hk : s.kcnt ≤ 8#4) (h : exec i s = .next t)
    (hf : s.phase ≠ .fault) : t.phase = tablePhaseAfter (s.kcnt == 8#4) s.phase i
      ∧ (t.phase = .fault → t.ecode = tableFault s.phase i) := by
  rcases exec_cases i s t h hf with ⟨rfl, rfl⟩ | ⟨⟨_, ⟨hp, hi⟩ | ⟨hp, hi⟩⟩, rfl⟩ | ⟨b, rfl, hp, rfl⟩ | ⟨d, rfl, hp, rfl⟩ |
    ⟨rfl, hp, rfl⟩ | ⟨b, rfl, hp, rfl⟩ | ⟨rfl, hp, rfl⟩
  · exact ⟨(tablePhaseAfter_reset _ _).symm, by simp⟩
  · obtain ⟨hphase, hcode⟩ := table_of_key_rejected (s.kcnt == 8#4) hp hi
    exact ⟨hphase.symm, fun _ => hcode.symm⟩
  · obtain ⟨hphase, hcode⟩ := table_of_instance_rejected (s.kcnt == 8#4) hp hi
    exact ⟨hphase.symm, fun _ => hcode.symm⟩
  · rw [captureKeyByte_phase, hp]
    exact ⟨rfl, fun c => by cases c⟩
  · exact construct_follows_table d hk hp
  · exact ⟨(ensureSchedule_phase s).trans (tablePhaseAfter_ksched _ hp).symm,
      fun c => absurd c (ensureSchedule_phase_ne_fault s hf)⟩
  · exact ⟨(acceptByte_phase b s).trans (tablePhaseAfter_data _ hp (.inl ⟨b, rfl⟩)).symm, by simp⟩
  · exact ⟨(finishMessage_phase s).trans (tablePhaseAfter_data _ hp (.inr rfl)).symm, by simp⟩

/-- In the table's `Fault` row only `RESET` leads out. -/
theorem exec_phase_of_fault {i : Instr} {s t : State} (full : Bool) (h : exec i s = .next t) (hf : s.phase = .fault) :
    t.phase = tablePhaseAfter full s.phase i := by
  by_cases hi : i = .reset
  · subst hi
    obtain rfl := Host.Outcome.next.inj h
    exact (tablePhaseAfter_reset full _).symm
  · obtain rfl := Host.Outcome.next.inj ((exec_of_fault hi hf).symm.trans h)
    rw [hf, tablePhaseAfter_of_fault full hi]

/-- Settles O30: outside `Fault` each case of `exec` is its cells of the table; in `Fault` only `RESET` acts; an illegal word is
refused or, in `Fault`, ignored. -/
theorem stateTableIsExact : Obligations.StateTableIsExact := by
  refine ⟨fun s t i hk h => ?_, fun s t w why rest hin hd h => ?_⟩
  · by_cases hf : s.phase = .fault
    · exact ⟨exec_phase_of_fault _ h hf, fun c => absurd hf c⟩
    · obtain ⟨hphase, hcode⟩ := exec_follows_table hk h hf
      exact ⟨hphase, fun _ => hcode⟩
  · rw [step_command s w rest hin, stepWord_illegal _ w why hd] at h
    by_cases hf : s.phase = .fault
    · rw [if_pos hf] at h
      obtain rfl := Host.Outcome.next.inj h
      exact ⟨hf, fun _ => rfl, fun c => absurd hf c⟩
    · rw [if_neg hf] at h
      obtain rfl := Host.Outcome.next.inj h
      exact ⟨rfl, fun c => absurd c hf, fun _ => rfl⟩

end Sys2Proof.Machine
end

section
/-! PROOF. Which fault a word raises, as a function of the phase, the key count and the word alone: a step outside `Fault`
raises that fault or, when there is none, leaves phase and code without a fault (60_exceptions R117, R119). In `Fault` there
is nothing to raise (R124). -/

namespace Sys2Proof.Machine

/-! ### Which fault a word raises -/

/-- The fault a command raises in phase `p` with `k` key bytes captured, if it raises one (60_exceptions R117, R119). It
describes no command in `Fault`. -/
def commandFault (p : Phase) (k : BitVec 4) : Instr → Option Cause
  | .reset => none
  | .keyb _ => if acceptsKey p then none else some .badSequence
  | .init _ => if acceptsKey p then (if k < 8#4 then some .keyShort else none) else some .badSequence
  | .ksched | .datab _ | .final => if hasInstance p then none else some .badSequence

/-- The fault a word raises: `IllegalCmd` when it is no command, else its command's. -/
def wordFault (p : Phase) (k : BitVec 4) (w : CmdWord) : Option Cause :=
  match decode w with
  | .illegal _ => some .illegalCmd
  | .command i => commandFault p k i

theorem wordFault_of_illegal (p : Phase) (k : BitVec 4) {w : CmdWord} {why : IllegalWord} (h : decode w = .illegal why) :
    wordFault p k w = some .illegalCmd := by
  simp only [wordFault, h]

theorem wordFault_of_command (p : Phase) (k : BitVec 4) {w : CmdWord} {i : Instr} (h : decode w = .command i) :
    wordFault p k w = commandFault p k i := by
  simp only [wordFault, h]

/-! ### The cases of each fault -/

theorem acceptsKey_eq_false_iff (p : Phase) : acceptsKey p = false ↔ p ≠ .idle := by
  rw [ne_eq, ← acceptsKey_iff, Bool.not_eq_true]

theorem hasInstance_eq_false_iff {p : Phase} (hf : p ≠ .fault) : hasInstance p = false ↔ p = .idle := by
  cases p with
  | fault => exact absurd rfl hf
  | idle | uninitialized | keysScheduled | ready => decide

theorem commandFault_ne_illegalCmd (p : Phase) (k : BitVec 4) (i : Instr) : commandFault p k i ≠ some .illegalCmd := by
  cases i with
  | reset => nofun
  | keyb _ | ksched | datab _ | final =>
    rw [commandFault]
    split <;> nofun
  | init _ =>
    rw [commandFault]
    split
    · split <;> nofun
    · nofun

theorem wordFault_eq_illegalCmd_iff (p : Phase) (k : BitVec 4) (w : CmdWord) :
    wordFault p k w = some .illegalCmd ↔ ∃ why, decode w = .illegal why := by
  cases hd : decode w with
  | illegal why => exact iff_of_true (wordFault_of_illegal p k hd) ⟨why, rfl⟩
  | command i =>
    rw [wordFault_of_command p k hd]
    exact iff_of_false (commandFault_ne_illegalCmd p k i) nofun

theorem wordFault_eq_badSequence_iff {p : Phase} (hf : p ≠ .fault) (k : BitVec 4) (w : CmdWord) :
    wordFault p k w = some .badSequence ↔
      (p ≠ .idle ∧ ((∃ b, decode w = .command (.keyb b)) ∨ ∃ d, decode w = .command (.init d)))
        ∨ (p = .idle ∧ (decode w = .command .ksched ∨ (∃ b, decode w = .command (.datab b))
          ∨ decode w = .command .final)) := by
  cases hd : decode w with
  | illegal why => simp [wordFault_of_illegal p k hd]
  | command i =>
    rw [wordFault_of_command p k hd]
    cases i with
    | reset => simp [commandFault]
    | keyb b => simp [commandFault, acceptsKey_eq_false_iff]
    | init d =>
      have hshort : (if k < 8#4 then some Cause.keyShort else none) ≠ some .badSequence := by split <;> nofun
      by_cases hp : p = .idle <;> simp [commandFault, acceptsKey_iff, hp, hshort]
    | ksched | datab b | final => simp [commandFault, hasInstance_eq_false_iff hf]

theorem wordFault_eq_keyShort_iff (p : Phase) (k : BitVec 4) (w : CmdWord) :
    wordFault p k w = some .keyShort ↔ p = .idle ∧ k < 8#4 ∧ ∃ d, decode w = .command (.init d) := by
  cases hd : decode w with
  | illegal why => simp [wordFault_of_illegal p k hd]
  | command i =>
    rw [wordFault_of_command p k hd]
    cases i with
    | init d => by_cases hp : p = .idle <;> simp [commandFault, acceptsKey_iff, hp]
    | reset | keyb _ | ksched | datab _ | final => simp [commandFault]

/-! ### No command's own effect writes `ECODE` -/

@[simp] theorem captureKeyByte_ecode (b : Byte) (s : State) : (captureKeyByte b s).ecode = s.ecode := by
  rcases captureKeyByte_cases b s with ⟨_, e⟩ | ⟨_, e⟩ <;> rw [e]

@[simp] theorem ensureSchedule_ecode (s : State) : (ensureSchedule s).ecode = s.ecode := by
  rcases ensureSchedule_cases s with ⟨_, e⟩ | ⟨_, e⟩ <;> rw [e]

@[simp] theorem acceptByte_ecode (b : Byte) (s : State) : (acceptByte b s).ecode = s.ecode := by
  rcases acceptByte_cases b s with ⟨_, e⟩ | ⟨_, e⟩ <;> simp [e]

@[simp] theorem finishMessage_ecode (s : State) : (finishMessage s).ecode = s.ecode := by
  rcases finishMessage_cases s with ⟨_, e⟩ | ⟨_, e⟩ <;> simp [e]

/-! ### A step raises the fault of its word -/

/-- Outside `Fault` a command raises its fault and nothing more, or leaves no fault behind. -/
theorem exec_follows_commandFault {i : Instr} {s t : State} (h : exec i s = .next t) (hf : s.phase ≠ .fault)
    (he : s.ecode = .noFault) :
    (∃ f, commandFault s.phase s.kcnt i = some f ∧ t = raise f s)
      ∨ (commandFault s.phase s.kcnt i = none ∧ t.phase ≠ .fault ∧ t.ecode = .noFault) := by
  rcases exec_cases i s t h hf with ⟨rfl, rfl⟩ | ⟨⟨_, ⟨hp, hi⟩ | ⟨hp, hi⟩⟩, rfl⟩ | ⟨b, rfl, hp, rfl⟩ |
    ⟨d, rfl, hp, rfl⟩ | ⟨rfl, hp, rfl⟩ | ⟨b, rfl, hp, rfl⟩ | ⟨rfl, hp, rfl⟩
  · exact .inr ⟨rfl, by simp, rfl⟩
  · exact .inl ⟨.badSequence, by rcases hi with ⟨_, rfl⟩ | ⟨_, rfl⟩ <;> simp [commandFault, hp], rfl⟩
  · exact .inl ⟨.badSequence, by rcases hi with rfl | ⟨_, rfl⟩ | rfl <;> simp [commandFault, hp], rfl⟩
  · exact .inr ⟨by simp [commandFault, acceptsKey, hp], by simp [hp], by simp [he]⟩
  · rcases construct_cases d s with ⟨hk, e⟩ | ⟨hk, e⟩
    · exact .inl ⟨.keyShort, by simp [commandFault, acceptsKey, hp, hk], e⟩
    · exact .inr ⟨by simp [commandFault, acceptsKey, hp, BitVec.not_lt.mpr hk], by simp [e], by simp [e, he]⟩
  · exact .inr ⟨by simp [commandFault, hp], ensureSchedule_phase_ne_fault s hf, by simp [he]⟩
  · exact .inr ⟨by simp [commandFault, hp], by simp, by simp [he]⟩
  · exact .inr ⟨by simp [commandFault, hp], by simp, by simp [he]⟩

/-- Outside `Fault` a step raises the fault of its word and nothing more, or leaves no fault behind. -/
theorem step_follows_wordFault {s t : State} {w : CmdWord} {rest : List HostAction}
    (hin : s.inputs = .command w :: rest) (hf : s.phase ≠ .fault) (he : s.ecode = .noFault) (h : step s = .next t) :
    (∃ f, wordFault s.phase s.kcnt w = some f ∧ t = raise f { s with inputs := rest })
      ∨ (wordFault s.phase s.kcnt w = none ∧ t.phase ≠ .fault ∧ t.ecode = .noFault) := by
  rw [step_command s w rest hin] at h
  cases hd : decode w with
  | illegal why =>
    rw [stepWord_illegal _ w why hd, if_neg hf] at h
    exact .inl ⟨.illegalCmd, wordFault_of_illegal _ _ hd, (Host.Outcome.next.inj h).symm⟩
  | command i =>
    rw [stepWord_command _ hd] at h
    rw [wordFault_of_command _ _ hd]
    exact exec_follows_commandFault h hf he

theorem causeCode_injective : Function.Injective causeCode := by
  intro f g h
  cases f <;> cases g <;> trivial

/-- `ECODE` records a fault exactly when the word raises it: the three codes differ, and none is the code of no fault. -/
theorem step_ecode_eq_causeCode_iff {s t : State} {w : CmdWord} {rest : List HostAction}
    (hin : s.inputs = .command w :: rest) (hf : s.phase ≠ .fault) (he : s.ecode = .noFault) (h : step s = .next t)
    (f : Cause) : t.ecode = causeCode f ↔ wordFault s.phase s.kcnt w = some f := by
  rcases step_follows_wordFault hin hf he h with ⟨g, hg, rfl⟩ | ⟨hnone, _, hcode⟩
  · rw [hg, raise_ecode, causeCode_injective.eq_iff, Option.some_inj]
  · rw [hnone, hcode]
    exact iff_of_false (causeCode_ne_noFault f).symm nofun

/-- The fault phase and a recorded code come together (60_exceptions R117). -/
theorem step_phase_fault_iff_ecode {s t : State} {w : CmdWord} {rest : List HostAction}
    (hin : s.inputs = .command w :: rest) (hf : s.phase ≠ .fault) (he : s.ecode = .noFault) (h : step s = .next t) :
    t.phase = .fault ↔ t.ecode ≠ .noFault := by
  rcases step_follows_wordFault hin hf he h with ⟨g, _, rfl⟩ | ⟨_, hphase, hcode⟩
  · exact iff_of_true rfl (causeCode_ne_noFault g)
  · exact iff_of_false hphase (not_not.mpr hcode)

/-! ### The statements -/

/-- Settles O33: each code is recorded exactly in the cases of its fault, and the step that enters `Fault` only raises. -/
theorem faultsAreRaisedExactlyWhen : Obligations.FaultsAreRaisedExactlyWhen := by
  refine ⟨⟨rfl, rfl, rfl, rfl⟩, fun s t w rest hin hf he h => ?_⟩
  have hcode := step_ecode_eq_causeCode_iff hin hf he h
  refine ⟨(hcode .illegalCmd).trans (wordFault_eq_illegalCmd_iff _ _ w),
    (hcode .badSequence).trans (wordFault_eq_badSequence_iff hf _ w),
    (hcode .keyShort).trans (wordFault_eq_keyShort_iff _ _ w), step_phase_fault_iff_ecode hin hf he h, fun ht => ?_⟩
  obtain ⟨f, rfl⟩ := step_enters_fault s t h hf ht
  rw [hin]
  rfl

/-- Settles O34: the fault phase is checked before the encoding, so a word other than `RESET`'s is only taken. -/
theorem faultPhaseIgnoresAllButReset : Obligations.FaultPhaseIgnoresAllButReset :=
  fun s hf => ⟨fun ⟨hphase, _⟩ => hphase hf,
    fun w rest hin hw => (step_command s w rest hin).trans (stepWord_of_fault hw hf)⟩

end Sys2Proof.Machine
end

section
/-! PROOF. The reset input is `RESET` without a word to decode (70_reset_and_hazards R130, R131). -/

namespace Sys2Proof.Machine

theorem step_assertReset (s : State) (rest : List HostAction) (h : s.inputs = .assertReset :: rest) :
    step s = exec .reset { s with inputs := rest } := by
  simp only [step, advance, h, perform, exec, execReset]

/-- Settles O35: the input resets at once, and `0x1000` decodes to `RESET`, which no phase holds back. -/
theorem resetInputEqualsResetCommand : Obligations.ResetInputEqualsResetCommand := by
  rintro s rest (hin | hin)
  · exact step_assertReset s rest hin
  · rw [step_command s _ rest hin]
    exact stepWord_command _ ((decode_eq_reset_iff _).mpr rfl)

end Sys2Proof.Machine
end

section
/-! PROOF. No command reads what holds no value: two engines that agree where values are held, with the whole key captured
when there is an instance, agree after each operation (10_state R26, R29, 93_implementation_defined V3). -/

namespace Sys2Proof.Machine

/-! ### Slots that agree up to a count -/

theorem slots_eq_of_agree {v w : Slots} {n : Nat} (h : ∀ k, k < n → v[k]? = w[k]?) (hn : 8 ≤ n) : v = w :=
  Vector.ext fun k hk => by simpa only [Vector.getElem?_eq_getElem hk, Option.some_inj] using h k (hk.trans_le hn)

/-- Writing the slot at the count makes one slot more agree. -/
theorem setSlot_agree {v w : Slots} {n : Nat} (h : ∀ k, k < n → v[k]? = w[k]?) (x : BitVec 8) :
    ∀ k, k < n + 1 → (setSlot v n x)[k]? = (setSlot w n x)[k]? := by
  intro k hk
  rw [setSlot, setSlot, Vector.getElem?_setIfInBounds, Vector.getElem?_setIfInBounds]
  by_cases hn : n = k
  · rw [if_pos hn, if_pos hn]
  · rw [if_neg hn, if_neg hn, h k (by omega)]

/-- Padding writes every slot from the count on. -/
theorem padSlots_eq_of_agree {v w : Slots} {n : Nat} (h : ∀ k, k < n → v[k]? = w[k]?) :
    padSlots v n (8 - n) = padSlots w n (8 - n) :=
  padSlots_eq fun k hk => by
    rw [getElem_padSlots _ _ _ _ hk]
    by_cases hn : k < n
    · rw [if_neg (by omega), if_pos hn]
      simpa only [Vector.getElem?_eq_getElem hk, Option.some_inj] using (h k hn).symm
    · rw [if_pos (by omega), if_neg hn]

theorem toNat_add_one_le {n : Nat} (x : BitVec n) : (x + 1#n).toNat ≤ x.toNat + 1 := by
  rw [BitVec.toNat_add, BitVec.toNat_ofNat]
  exact (Nat.mod_le _ _).trans (Nat.add_le_add_left (Nat.mod_le _ _) _)

/-! ### States that agree where values are held -/

section
variable {s s' : State}

/-- `STATUS` shows only elements that always hold a value (10_state R24). -/
theorem AgreeWhereWritten.status_eq (h : AgreeWhereWritten s s') : status s = status s' := by
  simp only [status, h.phase_eq, h.dir_eq, h.ecode_eq, h.kcnt_eq, h.bcnt_eq]

theorem AgreeWhereWritten.key_eq_of_complete (h : AgreeWhereWritten s s') (hk : 8#4 ≤ s.kcnt) : s.key = s'.key :=
  slots_eq_of_agree h.key_eq (BitVec.le_def.mp hk)

/-- The round keys in use are cached or made from the whole key. -/
theorem AgreeWhereWritten.roundKeysInUse_eq (h : AgreeWhereWritten s s') (hi : hasInstance s.phase = true)
    (hk : 8#4 ≤ s.kcnt) : roundKeysInUse s = roundKeysInUse s' := by
  by_cases hp : s.phase = .uninitialized
  · rw [roundKeysInUse, roundKeysInUse, ← h.phase_eq, if_pos hp, if_pos hp, h.key_eq_of_complete hk]
  · rw [roundKeysInUse, roundKeysInUse, ← h.phase_eq, if_neg hp, if_neg hp,
      h.rk_eq (((hasInstance_iff _).mp hi).resolve_left hp)]

/-- Both engines take the same side of a test. -/
theorem agree_ite {p q : Prop} [Decidable p] [Decidable q] {a a' b b' : State} (hpq : p ↔ q)
    (hpos : p → AgreeWhereWritten a a') (hneg : ¬ p → AgreeWhereWritten b b') :
    AgreeWhereWritten (if p then a else b) (if q then a' else b') := by
  by_cases hp : p
  · rw [if_pos hp, if_pos (hpq.mp hp)]
    exact hpos hp
  · rw [if_neg hp, if_neg (hpq.not.mp hp)]
    exact hneg hp

/-! ### The operations -/

theorem raise_agree (h : AgreeWhereWritten s s') (f : Cause) : AgreeWhereWritten (raise f s) (raise f s') :=
  { h with ecode_eq := rfl, phase_eq := rfl, rk_eq := nofun }

/-- After a reset no slot and no round key holds a value. -/
theorem resetEngine_agree (h : AgreeWhereWritten s s') : AgreeWhereWritten (resetEngine s) (resetEngine s') :=
  { h with
    kcnt_eq := rfl, phase_eq := rfl, dir_eq := rfl, ecode_eq := rfl, bcnt_eq := rfl
    key_eq := nofun, ibuf_eq := nofun, rk_eq := nofun }

theorem captureKeyByte_agree (h : AgreeWhereWritten s s') (b : Byte) :
    AgreeWhereWritten (captureKeyByte b s) (captureKeyByte b s') := by
  refine agree_ite (by rw [h.kcnt_eq]) (fun _ => ?_) (fun _ => h)
  rw [← h.kcnt_eq]
  exact { h with
    kcnt_eq := rfl
    key_eq := fun k hk => setSlot_agree h.key_eq _ k (hk.trans_le (toNat_add_one_le _)) }

theorem construct_agree (h : AgreeWhereWritten s s') (d : Direction) :
    AgreeWhereWritten (construct d s) (construct d s') :=
  agree_ite (by rw [h.kcnt_eq]) (fun _ => raise_agree h .keyShort)
    (fun _ => { h with dir_eq := rfl, phase_eq := rfl, rk_eq := nofun })

theorem ensureSchedule_agree (h : AgreeWhereWritten s s') (hi : hasInstance s.phase = true) (hk : 8#4 ≤ s.kcnt) :
    AgreeWhereWritten (ensureSchedule s) (ensureSchedule s') := by
  rw [ensureSchedule_eq_withWorkingOf s, ensureSchedule_eq_withWorkingOf s', ← h.phase_eq]
  exact { h with phase_eq := rfl, rk_eq := fun _ => h.roundKeysInUse_eq hi hk }

theorem ensureReady_agree (h : AgreeWhereWritten s s') (hi : hasInstance s.phase = true) (hk : 8#4 ≤ s.kcnt) :
    AgreeWhereWritten (ensureReady s) (ensureReady s') := by
  rw [ensureReady_eq_withWorkingOf s, ensureReady_eq_withWorkingOf s']
  exact { h with phase_eq := rfl, rk_eq := fun _ => h.roundKeysInUse_eq hi hk }

/-- A full input block and the cached round keys decide what is emitted. -/
theorem completeBlock_agree (h : AgreeWhereWritten s s') (hp : s.phase = .ready) (hfull : s.ibuf = s'.ibuf) :
    AgreeWhereWritten (completeBlock s) (completeBlock s') := by
  rw [completeBlock_eq, completeBlock_eq]
  exact { h with
    out_eq := by rw [h.out_eq, hfull, h.rk_eq (.inr hp), h.dir_eq]
    bcnt_eq := rfl
    ibuf_eq := nofun }

/-- The stored byte makes one slot of `IBUF` more agree, which completes the block or is counted. -/
theorem acceptByte_agree (h : AgreeWhereWritten s s') (hi : hasInstance s.phase = true) (hk : 8#4 ≤ s.kcnt) (b : Byte) :
    AgreeWhereWritten (acceptByte b s) (acceptByte b s') := by
  have hready := ensureReady_agree h hi hk
  have hslots : ∀ k, k < (ensureReady s).bcnt.toNat + 1 →
      (storeMessageByte b (ensureReady s)).ibuf[k]? = (storeMessageByte b (ensureReady s')).ibuf[k]? := by
    rw [storeMessageByte_ibuf, storeMessageByte_ibuf, ← hready.bcnt_eq]
    exact setSlot_agree hready.ibuf_eq _
  have hstored : AgreeWhereWritten (storeMessageByte b (ensureReady s)) (storeMessageByte b (ensureReady s')) :=
    { hready with ibuf_eq := fun k hk => hslots k (hk.trans (Nat.lt_succ_self _)) }
  refine agree_ite (by rw [hstored.bcnt_eq]) (fun hb => ?_) (fun _ => ?_)
  · rw [storeMessageByte_bcnt] at hb
    rw [hb] at hslots
    exact completeBlock_agree hstored rfl (slots_eq_of_agree hslots (by decide))
  · exact { hstored with
      bcnt_eq := by rw [hstored.bcnt_eq]
      ibuf_eq := fun k hk => hslots k (hk.trans_le (toNat_add_one_le _)) }

theorem finishMessage_agree (h : AgreeWhereWritten s s') (hi : hasInstance s.phase = true) (hk : 8#4 ≤ s.kcnt) :
    AgreeWhereWritten (finishMessage s) (finishMessage s') := by
  have hready := ensureReady_agree h hi hk
  refine agree_ite (by rw [hready.bcnt_eq]) (fun _ => ?_) (fun _ => hready)
  have hfull : (padBlock (ensureReady s)).ibuf = (padBlock (ensureReady s')).ibuf := by
    rw [padBlock_ibuf, padBlock_ibuf, ← hready.bcnt_eq]
    exact padSlots_eq_of_agree hready.ibuf_eq
  exact completeBlock_agree { hready with ibuf_eq := fun _ _ => by rw [hfull] } rfl hfull

/-- The phase check comes out alike in both engines. -/
theorem whenLegal_agree (h : AgreeWhereWritten s s') {legal : Phase → Bool} {effect : State → State}
    (heffect : legal s.phase = true → AgreeWhereWritten (effect s) (effect s')) :
    AgreeWhereWritten (whenLegal legal effect s) (whenLegal legal effect s') :=
  agree_ite (by rw [h.phase_eq]) (fun _ => h) fun _ =>
    agree_ite (by rw [h.phase_eq]) heffect fun _ => raise_agree h .badSequence

end

end Sys2Proof.Machine
end

section
/-! PROOF. Two runs with the same host actions, from reset on: the engines agree where values are held, and an instance has
its whole key, after each step of both (70_reset_and_hazards R139). -/

namespace Sys2Proof.Machine

/-! ### An instance has its whole key -/

/-- A cipher instance exists only with the whole key captured (10_state R26, item 3). -/
def KeyComplete (s : State) : Prop :=
  hasInstance s.phase = true → 8#4 ≤ s.kcnt

@[simp] theorem ensureSchedule_kcnt (s : State) : (ensureSchedule s).kcnt = s.kcnt := by
  rcases ensureSchedule_cases s with ⟨_, e⟩ | ⟨_, e⟩ <;> rw [e]

@[simp] theorem acceptByte_kcnt (b : Byte) (s : State) : (acceptByte b s).kcnt = s.kcnt := by
  rcases acceptByte_cases b s with ⟨_, e⟩ | ⟨_, e⟩ <;> simp [e]

@[simp] theorem finishMessage_kcnt (s : State) : (finishMessage s).kcnt = s.kcnt := by
  rcases finishMessage_cases s with ⟨_, e⟩ | ⟨_, e⟩ <;> simp [e]

/-- Only `INIT` makes an instance, and it checks the key; the data commands and `KSCHED` need one already. -/
theorem exec_keeps_keyComplete {i : Instr} {s t : State} (hk : KeyComplete s) (hf : s.phase ≠ .fault)
    (h : exec i s = .next t) : KeyComplete t := by
  rcases exec_cases i s t h hf with ⟨_, rfl⟩ | ⟨_, rfl⟩ | ⟨b, _, hp, rfl⟩ | ⟨d, _, _, rfl⟩ | ⟨_, hi, rfl⟩ |
    ⟨b, _, hi, rfl⟩ | ⟨_, hi, rfl⟩
  · nofun
  · nofun
  · intro hi
    rw [captureKeyByte_phase, hp] at hi
    cases hi
  · rcases construct_cases d s with ⟨_, e⟩ | ⟨hlen, e⟩ <;> rw [e]
    · nofun
    · exact fun _ => hlen
  · exact fun _ => (hk hi).trans_eq (ensureSchedule_kcnt s).symm
  · exact fun _ => (hk hi).trans_eq (acceptByte_kcnt b s).symm
  · exact fun _ => (hk hi).trans_eq (finishMessage_kcnt s).symm

theorem step_keeps_keyComplete {s t : State} (hk : KeyComplete s) (h : step s = .next t) : KeyComplete t := by
  rcases step_cases s t h with ⟨_, rfl⟩ | ⟨_, rest, _, ⟨_, rfl⟩ | ⟨_, _, rfl⟩ | ⟨_, _, _, rfl⟩ |
    ⟨_, hf, _, _, _, _, _, hexec⟩⟩
  · exact hk
  · nofun
  · exact hk
  · nofun
  · exact exec_keeps_keyComplete (s := { s with inputs := rest }) hk hf hexec

/-! ### One step of both engines -/

/-- Both outcomes are next states, and these agree where values are held. -/
def AnswersAgree (o o' : Host.Outcome State Fault Refusal) : Prop :=
  ∃ t t', o = .next t ∧ o' = .next t' ∧ AgreeWhereWritten t t'

theorem exec_agree {s s' : State} (h : AgreeWhereWritten s s') (hk : KeyComplete s) (i : Instr) :
    AnswersAgree (exec i s) (exec i s') := by
  cases i with
  | reset => exact ⟨_, _, rfl, rfl, resetEngine_agree h⟩
  | keyb b => exact ⟨_, _, exec_keyb b s, exec_keyb b s', whenLegal_agree h fun _ => captureKeyByte_agree h b⟩
  | init d => exact ⟨_, _, exec_init d s, exec_init d s', whenLegal_agree h fun _ => construct_agree h d⟩
  | ksched => exact ⟨_, _, exec_ksched s, exec_ksched s', whenLegal_agree h fun hi => ensureSchedule_agree h hi (hk hi)⟩
  | datab b => exact ⟨_, _, exec_datab b s, exec_datab b s', whenLegal_agree h fun hi => acceptByte_agree h hi (hk hi) b⟩
  | final => exact ⟨_, _, exec_final s, exec_final s', whenLegal_agree h fun hi => finishMessage_agree h hi (hk hi)⟩

theorem stepWord_agree {s s' : State} (h : AgreeWhereWritten s s') (hk : KeyComplete s) (w : CmdWord) :
    AnswersAgree (stepWord w s) (stepWord w s') := by
  cases hd : decode w with
  | command i =>
    rw [stepWord_command s hd, stepWord_command s' hd]
    exact exec_agree h hk i
  | illegal why =>
    rw [stepWord_illegal s w why hd, stepWord_illegal s' w why hd, ← h.phase_eq]
    split
    · exact ⟨_, _, rfl, rfl, h⟩
    · exact ⟨_, _, rfl, rfl, raise_agree h .illegalCmd⟩

theorem step_of_no_inputs {s : State} (h : s.inputs = []) : step s = .next s := by
  simp only [step, advance, h]

/-- Both engines take the same host action, so each step keeps the agreement. -/
theorem step_agree {s s' : State} (h : AgreeWhereWritten s s') (hk : KeyComplete s) :
    AnswersAgree (step s) (step s') := by
  have htaken (rest : List HostAction) : AgreeWhereWritten { s with inputs := rest } { s' with inputs := rest } :=
    { h with inputs_eq := rfl }
  have hin' := h.inputs_eq.symm
  cases hin : s.inputs with
  | nil =>
    rw [hin] at hin'
    exact ⟨s, s', step_of_no_inputs hin, step_of_no_inputs hin', h⟩
  | cons a rest =>
    rw [hin] at hin'
    cases a with
    | assertReset =>
      rw [step_assertReset s rest hin, step_assertReset s' rest hin']
      exact exec_agree (htaken rest) hk .reset
    | command w =>
      rw [step_command s w rest hin, step_command s' w rest hin']
      exact stepWord_agree (htaken rest) hk w

/-! ### Whole runs -/

theorem run_agree (n : Nat) {s s' : State} (h : AgreeWhereWritten s s') (hk : KeyComplete s) :
    AnswersAgree (Sys2Proof.core.run n s) (Sys2Proof.core.run n s') := by
  induction n generalizing s s' with
  | zero => exact ⟨s, s', rfl, rfl, h⟩
  | succ n ih =>
    obtain ⟨t, t', hs, hs', ht⟩ := step_agree h hk
    rw [run_succ n s t hs, run_succ n s' t' hs']
    exact ih ht (step_keeps_keyComplete hk hs)

/-- At reset nothing but the control fields and `OUT` holds a value (10_state R29). -/
theorem agree_of_atReset {s s' : State} (h : AtReset s) (h' : AtReset s') (hin : s.inputs = s'.inputs) :
    AgreeWhereWritten s s' := by
  obtain ⟨⟨hphase, hdir, hecode, hkcnt, hbcnt⟩, hout⟩ := h
  obtain ⟨⟨hphase', hdir', hecode', hkcnt', hbcnt'⟩, hout'⟩ := h'
  exact {
    kcnt_eq := hkcnt.trans hkcnt'.symm
    phase_eq := hphase.trans hphase'.symm
    dir_eq := hdir.trans hdir'.symm
    ecode_eq := hecode.trans hecode'.symm
    bcnt_eq := hbcnt.trans hbcnt'.symm
    out_eq := hout.trans hout'.symm
    inputs_eq := hin
    key_eq := by rw [hkcnt]; nofun
    ibuf_eq := by rw [hbcnt]; nofun
    rk_eq := by rw [hphase]; nofun }

theorem keyComplete_of_atReset {s : State} (h : AtReset s) : KeyComplete s := by
  obtain ⟨⟨hphase, _⟩, _⟩ := h
  rw [KeyComplete, hphase]
  nofun

/-- Settles O49: the runs start in agreement and keep it step by step, and what is shown is where values are held. -/
theorem runsDependOnHostActionsAlone : Obligations.RunsDependOnHostActionsAlone := by
  intro n s s' h h' hin
  obtain ⟨t, t', hrun, hrun', hagree⟩ := run_agree n (agree_of_atReset h h' hin) (keyComplete_of_atReset h)
  exact ⟨t, t', hrun, hrun', hagree, hagree.status_eq, hagree.out_eq⟩

end Sys2Proof.Machine
end

section
/-! PROOF. The invariants of one engine: they hold at reset, each operation keeps them, and so does each step
(10_state R26, R29). -/

namespace Sys2Proof.Machine

/-! ### The operations keep the invariants -/

theorem raise_keeps_engineInv {s : State} (h : EngineInv s) (f : Cause) : EngineInv (raise f s) :=
  { h with
    ecode_iff := iff_of_true (causeCode_ne_noFault f) rfl
    key_complete := nofun
    schedule := nofun
    no_waiting := nofun }

/-- A reset keeps `OUT` and writes every other element the invariants speak of. -/
theorem resetEngine_keeps_engineInv {s : State} (h : EngineInv s) : EngineInv (resetEngine s) where
  kcnt_le := by simp
  ecode_iff := by simp
  key_complete := nofun
  schedule := nofun
  no_waiting _ := rfl
  out_blocks := h.out_blocks

/-- In `Idle` neither `KEY` nor `KCNT` has to be complete; the count stops at 8. -/
theorem captureKeyByte_keeps_engineInv {s : State} (h : EngineInv s) (hp : s.phase = .idle) (b : Byte) :
    EngineInv (captureKeyByte b s) := by
  rcases captureKeyByte_cases b s with ⟨hlt, e⟩ | ⟨_, e⟩ <;> rw [e]
  · exact { h with
      kcnt_le := by
        show s.kcnt + 1#4 ≤ 8#4
        bv_omega
      key_complete := fun hi => by simp [hp, hasInstance] at hi
      schedule := fun hi => by simp [hp] at hi }
  · exact h

theorem construct_keeps_engineInv {s : State} (h : EngineInv s) (hp : s.phase = .idle) (d : Direction) :
    EngineInv (construct d s) := by
  rcases construct_cases d s with ⟨_, e⟩ | ⟨hle, e⟩ <;> rw [e]
  · exact raise_keeps_engineInv h .keyShort
  · exact { h with
      ecode_iff := by simpa [hp] using h.ecode_iff
      key_complete := fun _ => BitVec.le_antisymm h.kcnt_le hle
      schedule := nofun
      no_waiting := fun _ => h.no_waiting (.inl hp) }

theorem EngineInv.ecode_eq_noFault {s : State} (h : EngineInv s) (hp : s.phase ≠ .fault) : s.ecode = .noFault :=
  not_not.mp (mt h.ecode_iff.mp hp)

theorem phase_ne_fault_of_hasInstance {p : Phase} (hi : hasInstance p = true) : p ≠ .fault := by
  rintro rfl
  cases hi

theorem ensureSchedule_keeps_engineInv {s : State} (h : EngineInv s) (hi : hasInstance s.phase = true) :
    EngineInv (ensureSchedule s) := by
  rcases ensureSchedule_cases s with ⟨hp, e⟩ | ⟨_, e⟩ <;> rw [e]
  · exact { h with
      ecode_iff := by simpa [hp] using h.ecode_iff
      key_complete := fun _ => h.key_complete hi
      schedule := fun _ => rfl
      no_waiting := fun _ => h.no_waiting (.inr (.inl hp)) }
  · exact h

theorem ensureReady_keeps_engineInv {s : State} (h : EngineInv s) (hi : hasInstance s.phase = true) :
    EngineInv (ensureReady s) where
  kcnt_le := by simpa using h.kcnt_le
  ecode_iff := by simpa using h.ecode_eq_noFault (phase_ne_fault_of_hasInstance hi)
  key_complete _ := by simpa using h.key_complete hi
  schedule _ := by simpa using roundKeysInUse_eq_ks h ((hasInstance_iff _).mp hi)
  no_waiting := nofun
  out_blocks := by simpa using h.out_blocks

/-- In `Ready` the invariants do not speak of `IBUF` or `BCNT`. -/
theorem engineInv_of_ready {s : State} (h : EngineInv s) (hp : s.phase = .ready) (v : Slots) (n : BitVec 3) :
    EngineInv { s with ibuf := v, bcnt := n } :=
  { h with no_waiting := fun hq => by simp [hp] at hq }

/-- A complete block adds eight bytes to `OUT`. -/
theorem completeBlock_keeps_engineInv {s : State} (h : EngineInv s) : EngineInv (completeBlock s) := by
  rw [completeBlock_eq]
  exact { h with
    no_waiting := fun _ => rfl
    out_blocks := by
      rw [List.length_append, blockBytes_length]
      exact (Nat.dvd_add_self_right).mpr h.out_blocks }

theorem acceptByte_keeps_engineInv {s : State} (h : EngineInv s) (hi : hasInstance s.phase = true) (b : Byte) :
    EngineInv (acceptByte b s) := by
  have hready := ensureReady_keeps_engineInv h hi
  rcases acceptByte_cases b s with ⟨_, e⟩ | ⟨_, e⟩ <;> rw [e]
  · exact completeBlock_keeps_engineInv (engineInv_of_ready hready rfl _ _)
  · exact engineInv_of_ready hready rfl _ _

theorem finishMessage_keeps_engineInv {s : State} (h : EngineInv s) (hi : hasInstance s.phase = true) :
    EngineInv (finishMessage s) := by
  have hready := ensureReady_keeps_engineInv h hi
  rcases finishMessage_cases s with ⟨_, e⟩ | ⟨_, e⟩ <;> rw [e]
  · exact completeBlock_keeps_engineInv (engineInv_of_ready hready rfl _ _)
  · exact hready

/-! ### Commands and steps -/

theorem exec_keeps_engineInv {i : Instr} {s t : State} (h : EngineInv s) (hf : s.phase ≠ .fault)
    (ht : exec i s = .next t) : EngineInv t := by
  rcases exec_cases i s t ht hf with ⟨_, rfl⟩ | ⟨_, rfl⟩ | ⟨b, _, hp, rfl⟩ | ⟨d, _, hp, rfl⟩ | ⟨_, hi, rfl⟩ |
    ⟨b, _, hi, rfl⟩ | ⟨_, hi, rfl⟩
  · exact resetEngine_keeps_engineInv h
  · exact raise_keeps_engineInv h .badSequence
  · exact captureKeyByte_keeps_engineInv h hp b
  · exact construct_keeps_engineInv h hp d
  · exact ensureSchedule_keeps_engineInv h hi
  · exact acceptByte_keeps_engineInv h hi b
  · exact finishMessage_keeps_engineInv h hi

/-- Settles O47: each operation a step can come to keeps the invariants, and taking the host action from the port changes
nothing they speak of. -/
theorem stepKeepsInvariants : Obligations.StepKeepsInvariants := by
  intro s t h ht
  have htaken (rest : List HostAction) : EngineInv { s with inputs := rest } := { h with }
  rcases step_cases s t ht with ⟨_, rfl⟩ | ⟨_, rest, _, ⟨_, rfl⟩ | ⟨_, _, rfl⟩ | ⟨_, _, _, rfl⟩ |
    ⟨_, hf, _, _, _, _, _, hexec⟩⟩
  · exact h
  · exact resetEngine_keeps_engineInv (htaken rest)
  · exact htaken rest
  · exact raise_keeps_engineInv (htaken rest) .illegalCmd
  · exact exec_keeps_engineInv (htaken rest) hf hexec

/-- Settles O46: at reset no instance exists, no fault is recorded and nothing has been emitted. -/
theorem invariantsHoldAtReset : Obligations.InvariantsHoldAtReset where
  kcnt_le := by decide
  ecode_iff := by decide
  key_complete := nofun
  schedule := nofun
  no_waiting _ := rfl
  out_blocks := by decide

theorem EngineInv.keyComplete {s : State} (h : EngineInv s) : KeyComplete s := fun hi =>
  BitVec.le_of_eq (h.key_complete hi).symm

/-- Settles O48: an instance has its whole key, so the step of the second engine agrees with that of the first. -/
theorem unwrittenContentsAreNeverRead : Obligations.UnwrittenContentsAreNeverRead := by
  intro s s' t t' hinv hagree ht ht'
  obtain ⟨u, u', hu, hu', h⟩ := step_agree hagree hinv.keyComplete
  obtain rfl := Host.Outcome.next.inj (hu.symm.trans ht)
  obtain rfl := Host.Outcome.next.inj (hu'.symm.trans ht')
  exact ⟨h, h.status_eq, h.out_eq⟩

end Sys2Proof.Machine
end

section
/-! PROOF. A command and its word determine each other (30_encoding R45, R48). -/

namespace Sys2Proof

theorem instr_wellFormed (i : Instr) : i.WellFormed = true := by
  cases i <;> rfl

/-- Settles O2: the fields of a command's word are its opcode and its operand. -/
theorem decodeInvertsEncode : Obligations.DecodeInvertsEncode :=
  fun i => ⟨instr_wellFormed i, decode_encode i⟩

/-- Settles O3: the fields of a legal word are those of the word of its command. -/
theorem encodeInvertsDecode : Obligations.EncodeInvertsDecode :=
  fun _ _ => encode_eq_of_decode_eq

/-- Settles O1, a sanity statement about twenty fixed words, by evaluation. -/
theorem sampleWordsDecode : Obligations.SampleWordsDecode := by
  unfold Obligations.SampleWordsDecode
  decide

end Sys2Proof
end

section
/-! PROOF. The key schedule bit by bit: the halves are the halves of the compressed key, rotated once by the cumulative
amount, so each bit of a round key is one bit of the key (41_key_schedule R71 to R73). -/

namespace Sys2Proof.Machine

/-! ### The halves -/

theorem keyHalves_zero (k : Block) :
    keyHalves k 0 = (slice (permute k tablePC1) 0 28, slice (permute k tablePC1) 28 28) := rfl

theorem keyHalves_succ (k : Block) (n : Nat) : keyHalves k (n + 1) = rotateHalves n (keyHalves k n) := rfl

theorem getMsbD_keyHalves_fst (k : Block) (n i : Nat) (hi : i < 28) :
    (keyHalves k n).1.getMsbD i = k.getMsbD (tablePC1[(i + totalRotation n) % 28]'(by omega)) := by
  have hlt : (i + totalRotation n) % 28 < 28 := Nat.mod_lt _ (by decide)
  rw [keyHalves_eq_rotl28, getMsbD_rotl28 _ _ _ hi, keyHalves_zero, getMsbD_slice, decide_eq_true hlt, Bool.true_and,
    getMsbD_permute _ _ _ (by omega)]
  simp only [Nat.zero_add]

theorem getMsbD_keyHalves_snd (k : Block) (n i : Nat) (hi : i < 28) :
    (keyHalves k n).2.getMsbD i = k.getMsbD (tablePC1[28 + (i + totalRotation n) % 28]'(by omega)) := by
  have hlt : (i + totalRotation n) % 28 < 28 := Nat.mod_lt _ (by decide)
  rw [keyHalves_eq_rotl28, getMsbD_rotl28 _ _ _ hi, keyHalves_zero, getMsbD_slice, decide_eq_true hlt, Bool.true_and,
    getMsbD_permute _ _ _ (by omega)]

/-! ### The round keys -/

/-- The place in the compressed key that place `j` of the joined halves holds after `n` rounds. -/
def rotatedPlace (n j : Nat) : Nat :=
  if j < 28 then (j + totalRotation n) % 28 else 28 + (j - 28 + totalRotation n) % 28

theorem rotatedPlace_of_lt (n : Nat) {j : Nat} (h : j < 28) : rotatedPlace n j = (j + totalRotation n) % 28 := if_pos h

theorem rotatedPlace_of_le (n : Nat) {j : Nat} (h : 28 ≤ j) :
    rotatedPlace n j = 28 + (j - 28 + totalRotation n) % 28 := if_neg (Nat.not_lt.mpr h)

theorem rotatedPlace_lt (n j : Nat) : rotatedPlace n j < 56 := by
  rcases Nat.lt_or_ge j 28 with h | h
  · rw [rotatedPlace_of_lt n h]
    omega
  · rw [rotatedPlace_of_le n h]
    omega

theorem getMsbD_roundKeyOf (k : Block) (n i : Nat) (hi : i < 48) :
    (roundKeyOf k n).getMsbD i
      = k.getMsbD (tablePC1[rotatedPlace (n + 1) tablePC2[i]]'(rotatedPlace_lt _ _)) := by
  rw [roundKeyOf, getMsbD_permute _ _ _ hi, BitVec.getMsbD_append]
  rcases Nat.lt_or_ge (tablePC2[i]).val 28 with h | h
  · simp only [rotatedPlace_of_lt _ h, if_neg (Nat.not_le.mpr h), getMsbD_keyHalves_fst k (n + 1) _ h]
  · have hlt : (tablePC2[i]).val - 28 < 28 := by omega
    simp only [rotatedPlace_of_le _ h, if_pos h, getMsbD_keyHalves_snd k (n + 1) _ hlt]

/-- The cumulative rotations of R73. -/
theorem totalRotation_eq (n : Fin 16) :
    totalRotation (n.val + 1)
      = (#v[1, 2, 4, 6, 8, 10, 12, 14, 15, 17, 19, 21, 23, 25, 27, 28] : Vector Nat 16)[n.val] := by
  revert n
  decide

/-- Settles O13: bit `i` comes through `PC2` from a place of the joined halves, through the rotation from a place of the
compressed key, and through `PC1` from a place of the key. -/
theorem roundKeyBitsComeFromKeyBits : Obligations.RoundKeyBitsComeFromKeyBits := by
  intro k n hn i hi turned j source
  have hturned : totalRotation (n + 1) = turned := totalRotation_eq ⟨n, hn⟩
  have hsource : rotatedPlace (n + 1) j = source := by
    simp only [source, ← hturned]
    rfl
  have hlt : source < 56 := hsource ▸ rotatedPlace_lt _ _
  have hentry : tablePC1.toList.getD source 0 = tablePC1[source] := by
    rw [List.getD_eq_getElem _ _ (by simpa using hlt), Vector.getElem_toList]
  rw [getElem_ks k n hn, getMsbD_roundKeyOf k n i hi, hentry]
  simp only [← hsource, j]

/-! ### The parity positions -/

/-- The schedule reads the key through `PC1` only. -/
theorem ks_eq_of_compressed_eq {k k' : Block} (h : permute k tablePC1 = permute k' tablePC1) : ks k = ks k' := by
  have hhalves (n : Nat) : keyHalves k n = keyHalves k' n := by
    rw [keyHalves_eq_rotl28 k, keyHalves_eq_rotl28 k', keyHalves_zero, keyHalves_zero, h]
  exact Vector.ext fun n hn => by rw [getElem_ks k n hn, getElem_ks k' n hn, roundKeyOf, roundKeyOf, hhalves]

/-- The parity positions are the ones `PC1` leaves out, so none of its entries is one. -/
theorem tablePC1_avoids_parity (i : Nat) (hi : i < 56) : (tablePC1[i]).val % 8 ≠ 7 := by
  have hparity : ∀ x : Fin 64, x.val % 8 = 7 → x ∈ ([7, 15, 23, 31, 39, 47, 55, 63] : List (Fin 64)) := by decide
  intro h
  have homitted := hparity _ h
  rw [← tablePC1_omits, List.mem_filter] at homitted
  simp at homitted

/-- Settles O14: `PC1` reads no parity position, and the schedule reads the key through `PC1` only. -/
theorem parityPositionsAreUnread : Obligations.ParityPositionsAreUnread := by
  intro k k' h
  have hcompressed : permute k tablePC1 = permute k' tablePC1 := vec_ext fun i hi => by
    rw [getMsbD_permute _ _ _ hi, getMsbD_permute _ _ _ hi]
    exact h _ (tablePC1[i]).isLt (tablePC1_avoids_parity i hi)
  have hks := ks_eq_of_compressed_eq hcompressed
  exact ⟨hks, fun b d => by rw [hks]⟩

end Sys2Proof.Machine
end

section
/-! PROOF. The complementation law: each stage carries a complement through, and the key mixing cancels two of them
(95_test_vectors section 4.8). -/

namespace Sys2Proof.Machine

/-! ### The stages -/

theorem slice_not {n : Nat} (v : BitVec n) (start len : Nat) (h : start + len ≤ n) :
    slice (~~~v) start len = ~~~(slice v start len) :=
  vec_ext fun i hi => by
    have hlt : start + i < n := by omega
    simp [hi, hlt, BitVec.getMsbD_not]

theorem rotl28_not (v : KeyHalf) (s : Nat) : rotl28 (~~~v) s = ~~~(rotl28 v s) :=
  vec_ext fun i hi => by
    have hlt : (i + s) % 28 < 28 := Nat.mod_lt _ (by decide)
    simp [hi, hlt, BitVec.getMsbD_not]

theorem xorVec_not_left {n : Nat} (a b : BitVec n) : xorVec (~~~a) b = ~~~(xorVec a b) := by
  rw [xorVec_eq, xorVec_eq, BitVec.not_xor_left]

theorem xorVec_not_not {n : Nat} (a b : BitVec n) : xorVec (~~~a) (~~~b) = xorVec a b := by
  rw [xorVec_not_left, xorVec_comm, xorVec_not_left, BitVec.not_not, xorVec_comm]

/-! ### The schedule -/

theorem keyHalves_not (k : Block) (n : Nat) :
    keyHalves (~~~k) n = (~~~(keyHalves k n).1, ~~~(keyHalves k n).2) := by
  induction n with
  | zero =>
    rw [keyHalves_zero, keyHalves_zero, permute_not, slice_not _ _ _ (by decide), slice_not _ _ _ (by decide)]
  | succ n ih => rw [keyHalves_succ, keyHalves_succ, ih, rotateHalves, rotateHalves, rotl28_not, rotl28_not]

theorem getElem_ks_not (k : Block) (n : Nat) (hn : n < 16) : (ks (~~~k))[n] = ~~~(ks k)[n] := by
  rw [getElem_ks _ n hn, getElem_ks _ n hn, roundKeyOf, roundKeyOf, keyHalves_not, ← permute_not, BitVec.not_append]

theorem orderedKey_ks_not (k : Block) (d : Direction) (i : Nat) (hi : i < 16) :
    orderedKey (ks (~~~k)) d i = ~~~(orderedKey (ks k) d i) := by
  rw [orderedKey_of_lt _ _ _ hi, orderedKey_of_lt _ _ _ hi, getElem_ks_not, getElem_ks_not, apply_ite Complement.complement]

/-! ### The rounds -/

/-- The two complements cancel where the key is mixed in. -/
theorem roundF_not_not (r : Half) (k : RoundKey) : roundF (~~~r) (~~~k) = roundF r k :=
  roundF_eq_of_mix_eq _ _ _ _ (by rw [permute_not, xorVec_not_not])

theorem feistelRound_not (p : Half × Half) (k : RoundKey) :
    feistelRound (~~~p.1, ~~~p.2) (~~~k) = (~~~(feistelRound p k).1, ~~~(feistelRound p k).2) := by
  simp only [feistelRound, roundF_not_not, xorVec_not_left]

theorem blockHalves_not (k b : Block) (d : Direction) (i : Nat) (hi : i ≤ 16) :
    blockHalves (~~~b) (ks (~~~k)) d i
      = (~~~(blockHalves b (ks k) d i).1, ~~~(blockHalves b (ks k) d i).2) := by
  induction i with
  | zero =>
    rw [blockHalves_zero, blockHalves_zero, permute_not, slice_not _ _ _ (by decide), slice_not _ _ _ (by decide)]
  | succ i ih =>
    rw [blockHalves_succ, blockHalves_succ, ih (by omega), orderedKey_ks_not k d i (by omega), feistelRound_not]

/-- Settles O20: the sixteen rounds carry the complement of both halves through, and so does the final permutation. -/
theorem complementCarriesThrough : Obligations.ComplementCarriesThrough := by
  intro k b d
  rw [block, block, blockHalves_not k b d 16 le_rfl, ← permute_not, BitVec.not_append]

end Sys2Proof.Machine
end

section
/-! PROOF. Sixteen rotations are a full turn, and halves of equal bits are kept by each of them, as are those of the two keys
the rule names, of which one is the other's complement (41_key_schedule R73). -/

namespace Sys2Proof.Machine

theorem keyHalves_sixteen (k : Block) : keyHalves k 16 = keyHalves k 0 := by
  have hturn : totalRotation 16 = 28 := by decide
  rw [keyHalves_eq_rotl28, hturn, rotl28_full_turn, rotl28_full_turn]

/-- Rotating halves of equal bits changes nothing, so every round key is made of the first halves. -/
theorem getElem_ks_of_equal_bits {k : Block}
    (hc : ∀ i j, i < 28 → j < 28 → (keyHalves k 0).1.getMsbD i = (keyHalves k 0).1.getMsbD j)
    (hd : ∀ i j, i < 28 → j < 28 → (keyHalves k 0).2.getMsbD i = (keyHalves k 0).2.getMsbD j) (n : Nat) (hn : n < 16) :
    (ks k)[n] = permute ((keyHalves k 0).1 ++ (keyHalves k 0).2) tablePC2 := by
  rw [getElem_ks k n hn, roundKeyOf, keyHalves_eq_rotl28, rotl28_of_equal_bits _ _ hc, rotl28_of_equal_bits _ _ hd]

/-- All bits of this key outside the parity positions are 0. -/
theorem compressed_of_0x01 : permute 0x0101010101010101#64 tablePC1 = 0#56 := by
  have hzero : ∀ j : Fin 64, j.val % 8 ≠ 7 → (0x0101010101010101#64).getMsbD j.val = false := by decide
  exact vec_ext fun i hi => by
    rw [getMsbD_permute _ _ _ hi, hzero _ (tablePC1_avoids_parity i hi), BitVec.getMsbD_zero]

/-- The key compresses as the zero key does, and a schedule of zeros is made of zeros. -/
theorem getElem_ks_of_0x01 (n : Nat) (hn : n < 16) : (ks 0x0101010101010101#64)[n] = 0#48 := by
  have hks : ks 0x0101010101010101#64 = ks 0#64 :=
    ks_eq_of_compressed_eq (compressed_of_0x01.trans (permute_zero tablePC1).symm)
  have hhalves : keyHalves 0#64 0 = (0#28, 0#28) := by
    rw [keyHalves_zero, permute_zero]
    decide
  rw [hks, getElem_ks_of_equal_bits (by simp [hhalves]) (by simp [hhalves]) n hn, hhalves]
  exact permute_zero tablePC2

/-- This key is the complement of the other one. -/
theorem getElem_ks_of_0xFE (n : Nat) (hn : n < 16) : (ks 0xFEFEFEFEFEFEFEFE#64)[n] = 0xFFFFFFFFFFFF#48 := by
  rw [show 0xFEFEFEFEFEFEFEFE#64 = ~~~0x0101010101010101#64 by decide, getElem_ks_not, getElem_ks_of_0x01]
  decide

/-- Settles O15: the rotations add up to a full turn, and leave halves of equal bits as they are. -/
theorem fullTurnAndWeakKeys : Obligations.FullTurnAndWeakKeys := by
  refine ⟨keyHalves_sixteen, fun k hc hd n hn => ?_, getElem_ks_of_0x01, getElem_ks_of_0xFE⟩
  rw [getElem_ks_of_equal_bits hc hd n hn, getElem_ks_of_equal_bits hc hd 0 (by decide)]

end Sys2Proof.Machine
end

section
/-! PROOF. The controller on the working registers: after `n` micro-steps they hold the values the pure functions have after
`n` rounds (41_key_schedule R71, 43_block_datapath R100). -/

namespace Sys2Proof.Machine

/-! ### The key schedule -/

theorem scheduleRounds_succ (s : State) (n : Nat) :
    scheduleRounds s (n + 1) = scheduleRound n (scheduleRounds s n) := rfl

/-- `C` and `D` run through the halves of the pure schedule, and besides them only `RK` is written. -/
theorem scheduleRounds_eq (s : State) (n : Nat) : scheduleRounds s n = { s with
    c := (keyHalves (joinSlots s.key) n).1
    d := (keyHalves (joinSlots s.key) n).2
    rk := (scheduleRounds s n).rk } := by
  induction n with
  | zero => rfl
  | succ n ih =>
    rw [scheduleRounds_succ, ih]
    rfl

/-- Round `n + 1` writes entry `n`. -/
theorem getElem_scheduleRounds_rk (s : State) (n i : Nat) (hi : i < 16) :
    (scheduleRounds s n).rk[i] = if i < n then roundKeyOf (joinSlots s.key) i else s.rk[i] := by
  induction n with
  | zero => rfl
  | succ n ih =>
    have hwritten : (scheduleRounds s (n + 1)).rk
        = (scheduleRounds s n).rk.setIfInBounds n (roundKeyOf (joinSlots s.key) n) := by
      rw [scheduleRounds_succ, scheduleRounds_eq s n]
      rfl
    simp only [hwritten, Vector.getElem_setIfInBounds, ih]
    by_cases h : n = i
    · subst h
      simp
    · rw [if_neg h]
      exact if_congr (by omega) rfl rfl

/-- Settles O16: sixteen rounds write all sixteen entries, and the halves are back where they began. -/
theorem scheduleControllerRealisesKs : Obligations.ScheduleControllerRealisesKs := by
  intro s
  have hrk : (scheduleRounds s 16).rk = ks (joinSlots s.key) := Vector.ext fun i hi => by
    rw [getElem_scheduleRounds_rk s 16 i hi, if_pos hi, getElem_ks _ i hi]
  rw [scheduleRounds_eq, hrk, keyHalves_sixteen]

/-! ### The block transform -/

theorem microRounds_succ (s : State) (n : Nat) : microRounds s (n + 1) = microRound (microRounds s n) := rfl

/-- `RND` is the number of the round to come, up to 15, where it stops. -/
theorem rnd_counts_on (n : Nat) (h : n < 16) :
    (if BitVec.ofNat 4 (min n 15) < 15#4 then BitVec.ofNat 4 (min n 15) + 1#4 else BitVec.ofNat 4 (min n 15))
      = BitVec.ofNat 4 (min (n + 1) 15) := by
  interval_cases n <;> decide

theorem microRounds_eq (s : State) (n : Nat) (hn : n ≤ 16) : microRounds s n = { s with
    l := (blockHalves (joinSlots s.ibuf) s.rk s.dir n).1
    r := (blockHalves (joinSlots s.ibuf) s.rk s.dir n).2
    rnd := BitVec.ofNat 4 (min n 15) } := by
  induction n with
  | zero => rfl
  | succ n ih =>
    have hround : (BitVec.ofNat 4 (min n 15)).toNat = n := by
      rw [BitVec.toNat_ofNat]
      omega
    rw [microRounds_succ, ih (by omega), microRound]
    simp only [hround, rnd_counts_on n (by omega)]
    rfl

/-- Settles O21: after sixteen rounds `L` and `R` hold the halves that `BLOCK` swaps and permutes. -/
theorem controllerRealisesBlock : Obligations.ControllerRealisesBlock := by
  intro s
  rw [microBlock, microRounds_eq s 16 le_rfl, microStore, emitBlock_eq]
  rfl

end Sys2Proof.Machine
end

section
/-! PROOF. What each element of the state can be changed by: the cases of a command, with the two data commands taken
together, and the registers each case leaves (10_state R22, R27). -/

namespace Sys2Proof.Machine

/-! ### What a data command leaves -/

/-- What `DATAB` and `FINAL` have in common: `EnsureReady`, and then either a block in `IBUF` is processed, when `full`, or
at most `IBUF` and `BCNT` are written. -/
def DataEffect (full : Prop) (s t : State) : Prop :=
  (full ∧ ∃ v : Slots, t = completeBlock { ensureReady s with ibuf := v })
    ∨ (¬ full ∧ ∃ (v : Slots) (n : BitVec 3), t = { ensureReady s with ibuf := v, bcnt := n })

theorem acceptByte_effect (b : Byte) (s : State) : DataEffect (s.bcnt = 7#3) s (acceptByte b s) := by
  rcases acceptByte_cases b s with ⟨h, e⟩ | ⟨h, e⟩ <;> rw [e, storeMessageByte_ensureReady]
  · exact .inl ⟨h, _, rfl⟩
  · exact .inr ⟨h, _, _, rfl⟩

theorem finishMessage_effect (s : State) : DataEffect (s.bcnt ≠ 0#3) s (finishMessage s) := by
  rcases finishMessage_cases s with ⟨h, e⟩ | ⟨h, e⟩ <;> rw [e]
  · rw [padBlock_ensureReady]
    exact .inl ⟨h, _, rfl⟩
  · exact .inr ⟨not_not.mpr h, _, _, rfl⟩

@[simp] theorem completeBlock_c (s : State) : (completeBlock s).c = s.c := by rw [completeBlock_eq]
@[simp] theorem completeBlock_d (s : State) : (completeBlock s).d = s.d := by rw [completeBlock_eq]

section
variable {full : Prop} {s t : State}

/-- The elements that do not depend on whether a block is complete. -/
theorem DataEffect.frame (h : DataEffect full s t) :
    t.key = s.key ∧ t.kcnt = s.kcnt ∧ t.dir = s.dir ∧ t.ecode = s.ecode ∧ t.phase = .ready ∧ t.rk = roundKeysInUse s
      ∧ t.c = (ensureReady s).c ∧ t.d = (ensureReady s).d := by
  rcases h with ⟨_, v, rfl⟩ | ⟨_, v, n, rfl⟩ <;> simp

/-- The registers of the block transform are left alone when no block is complete. -/
theorem DataEffect.keeps_transform (h : DataEffect full s t) (hfull : ¬ full) :
    t.l = s.l ∧ t.r = s.r ∧ t.rnd = s.rnd := by
  rcases h with ⟨hf, _⟩ | ⟨_, v, n, rfl⟩
  · exact absurd hf hfull
  · simp

theorem DataEffect.out_cases (h : DataEffect full s t) :
    (full ∧ ∃ o : Block, t.out = s.out ++ blockBytes o) ∨ (¬ full ∧ t.out = s.out) := by
  rcases h with ⟨hf, v, rfl⟩ | ⟨hf, v, n, rfl⟩
  · exact .inl ⟨hf, _, by rw [completeBlock_out, ensureReady_out]⟩
  · exact .inr ⟨hf, by rw [ensureReady_out]⟩

end

theorem roundKeysInUse_of_ne {s : State} (h : s.phase ≠ .uninitialized) : roundKeysInUse s = s.rk := if_neg h

/-- Once the schedule has been generated, its working registers are left alone. -/
theorem ensureReady_keeps_schedule_registers {s : State} (h : s.phase ≠ .uninitialized) :
    (ensureReady s).c = s.c ∧ (ensureReady s).d = s.d := by
  rw [ensureReady, ensureSchedule_of_ne h]
  exact ⟨rfl, rfl⟩

/-! ### What a command leaves -/

/-- The cases of a command other than `RESET` outside `Fault`: it raises, changes nothing, or writes what its rule names. -/
theorem exec_effect_cases {i : Instr} {s t : State} (hi : i ≠ .reset) (hf : s.phase ≠ .fault)
    (h : exec i s = .next t) :
    (∃ f, t = raise f s)
    ∨ t = s
    ∨ (∃ b, i = .keyb b ∧ s.phase = .idle ∧ s.kcnt < 8#4
        ∧ t = { s with key := setSlot s.key s.kcnt.toNat (bits b), kcnt := s.kcnt + 1#4 })
    ∨ (∃ d, i = .init d ∧ s.phase = .idle ∧ 8#4 ≤ s.kcnt ∧ t = { s with dir := d, phase := .uninitialized })
    ∨ (i = .ksched ∧ s.phase = .uninitialized ∧ t = { s with
        rk := ks (joinSlots s.key)
        phase := .keysScheduled
        c := Config.cNoValue s.draws
        d := Config.dNoValue s.draws
        draws := s.draws + 1 })
    ∨ (hasInstance s.phase = true ∧ ∃ full, DataEffect full s t ∧ ((∃ b, i = .datab b) ∨ i = .final)
        ∧ (full → (s.bcnt = 7#3 ∧ ∃ b, i = .datab b) ∨ (s.bcnt ≠ 0#3 ∧ i = .final))) := by
  rcases exec_cases i s t h hf with ⟨e, _⟩ | ⟨_, e⟩ | ⟨b, rfl, hp, rfl⟩ | ⟨d, rfl, hp, rfl⟩ | ⟨rfl, hp, rfl⟩ |
    ⟨b, rfl, hp, rfl⟩ | ⟨rfl, hp, rfl⟩
  · exact absurd e hi
  · exact .inl ⟨.badSequence, e⟩
  · rcases captureKeyByte_cases b s with ⟨hk, e⟩ | ⟨_, e⟩
    · exact .inr (.inr (.inl ⟨b, rfl, hp, hk, e⟩))
    · exact .inr (.inl e)
  · rcases construct_cases d s with ⟨_, e⟩ | ⟨hk, e⟩
    · exact .inl ⟨.keyShort, e⟩
    · exact .inr (.inr (.inr (.inl ⟨d, rfl, hp, hk, e⟩)))
  · rcases ensureSchedule_cases s with ⟨hu, e⟩ | ⟨_, e⟩
    · exact .inr (.inr (.inr (.inr (.inl ⟨rfl, hu, e⟩))))
    · exact .inr (.inl e)
  · exact .inr (.inr (.inr (.inr (.inr ⟨hp, _, acceptByte_effect b s, .inl ⟨b, rfl⟩, fun hb => .inl ⟨hb, b, rfl⟩⟩))))
  · exact .inr (.inr (.inr (.inr (.inr ⟨hp, _, finishMessage_effect s, .inr rfl, fun hb => .inr ⟨hb, rfl⟩⟩))))

/-- Settles O31: only the schedule and a complete block write working registers, and a complete block emits. -/
theorem workingRegistersAreKeptBetweenUses : Obligations.WorkingRegistersAreKeptBetweenUses := by
  intro s t i hi h
  by_cases hf : s.phase = .fault
  · obtain rfl := Host.Outcome.next.inj ((exec_of_fault hi hf).symm.trans h)
    exact ⟨fun _ => ⟨rfl, rfl⟩, fun _ => ⟨rfl, rfl, rfl⟩⟩
  rcases exec_effect_cases hi hf h with ⟨f, rfl⟩ | rfl | ⟨b, _, _, _, rfl⟩ | ⟨d, _, _, _, rfl⟩ | ⟨_, hu, rfl⟩ |
    ⟨_, full, he, _, _⟩
  iterate 4 exact ⟨fun _ => ⟨rfl, rfl⟩, fun _ => ⟨rfl, rfl, rfl⟩⟩
  · exact ⟨fun hne => absurd hu hne, fun _ => ⟨rfl, rfl, rfl⟩⟩
  · obtain ⟨_, _, _, _, _, _, hc, hd⟩ := he.frame
    refine ⟨fun hne => ?_, fun hout => he.keeps_transform fun hfull => ?_⟩
    · rw [hc, hd]
      exact ensureReady_keeps_schedule_registers hne
    · rcases he.out_cases with ⟨_, o, e⟩ | ⟨hn, _⟩
      · have hlen := congrArg List.length (e.symm.trans hout)
        rw [List.length_append, blockBytes_length] at hlen
        omega
      · exact hn hfull

/-! ### What a step leaves -/

/-- The cases of a step that takes `a`, no reset: only the action is taken, a fault is raised, or a command runs. -/
theorem step_effect_cases {s t : State} {a : HostAction} {rest : List HostAction} (hin : s.inputs = a :: rest)
    (ha : ¬ isReset a) (h : step s = .next t) :
    t = { s with inputs := rest }
    ∨ (s.phase ≠ .fault ∧ ((∃ f, t = raise f { s with inputs := rest })
      ∨ ∃ i, a = .command (encode i) ∧ i ≠ .reset ∧ exec i { s with inputs := rest } = .next t)) := by
  rcases step_cases s t h with ⟨hnone, _⟩ | ⟨a', rest', hin', hcase⟩
  · exact absurd (hnone.symm.trans hin) nofun
  · obtain ⟨rfl, rfl⟩ := List.cons.inj (hin.symm.trans hin')
    rcases hcase with ⟨hr, _⟩ | ⟨_, _, e⟩ | ⟨_, hf, _, e⟩ | ⟨_, hf, w, i, rfl, hd, hi, hexec⟩
    · exact absurd hr ha
    · exact .inl e
    · exact .inr ⟨hf, .inl ⟨.illegalCmd, e⟩⟩
    · exact .inr ⟨hf, .inr ⟨i, by rw [encode_eq_of_decode_eq hd], hi, hexec⟩⟩

/-- The phase a data command leads to is new only where no data command has run since the construction. -/
theorem phase_of_ne_ready {p : Phase} (hp : hasInstance p = true) (hne : Phase.ready ≠ p) :
    p = .uninitialized ∨ p = .keysScheduled := by
  rcases (hasInstance_iff p).mp hp with h | h | h
  · exact .inl h
  · exact .inr h
  · exact absurd h.symm hne

/-- Settles O41: each case of a step writes what its rule names, and every other element stays as it is. -/
theorem eachElementHasItsWriters : Obligations.EachElementHasItsWriters := by
  intro s t a rest hin ha h
  rcases step_effect_cases hin ha h with rfl | ⟨hf, ⟨f, rfl⟩ | ⟨i, rfl, hi, hexec⟩⟩
  · simp
  · simp [hf]
  rcases exec_effect_cases (s := { s with inputs := rest }) hi hf hexec with ⟨f, rfl⟩ | rfl | ⟨b, rfl, hp, hk, rfl⟩ |
    ⟨d, rfl, hp, hk, rfl⟩ | ⟨rfl, hu, rfl⟩ | ⟨hp, full, he, hdata, hfull⟩
  · simp [hf]
  · simp
  · refine ⟨fun _ => ⟨hp, hk, b, rfl⟩, ?_⟩
    simp
  · refine ⟨by simp, fun _ => ⟨hp, d, rfl⟩, by simp, by simp, by simp, fun _ => .inr (.inl ⟨hp, rfl, hk, d, rfl⟩), ?_⟩
    simp
  · refine ⟨by simp, by simp, fun _ => ⟨hu, .inl rfl⟩, by simp, by simp, fun _ => .inr (.inr (.inl ⟨hu, rfl, rfl⟩)),
      fun _ => ⟨hu, .inl rfl⟩, by simp⟩
  · obtain ⟨hkey, hkcnt, hdir, hecode, hphase, hrk, hc, hd⟩ := he.frame
    have hword : (∃ b, HostAction.command (encode i) = .command (encode (.datab b)))
        ∨ HostAction.command (encode i) = .command (encode .final) := by
      rcases hdata with ⟨b, rfl⟩ | rfl
      · exact .inl ⟨b, rfl⟩
      · exact .inr rfl
    refine ⟨?_, ?_, fun hne => ⟨?_, .inr hword⟩, fun _ => ⟨hp, hword⟩, ?_, fun hne => ?_,
      fun hne => ⟨?_, .inr hword⟩, fun hne => ⟨hp, ?_⟩⟩
    · simp [hkey, hkcnt]
    · simp [hdir]
    · by_contra hu
      exact hne (hrk.trans (roundKeysInUse_of_ne hu))
    · simp [hecode]
    · rw [hphase] at hne
      exact .inr (.inr (.inr ⟨phase_of_ne_ready hp hne, hphase, hword⟩))
    · by_contra hu
      obtain ⟨hc', hd'⟩ := ensureReady_keeps_schedule_registers (s := { s with inputs := rest }) hu
      exact hne.elim (· (hc.trans hc')) (· (hd.trans hd'))
    · have hblock : full := by
        by_contra hn
        obtain ⟨hl, hr, hrnd⟩ := he.keeps_transform hn
        exact hne.elim (· hl) (·.elim (· hr) (· hrnd))
      rcases hfull hblock with ⟨hb, b, rfl⟩ | ⟨hb, rfl⟩
      · exact .inl ⟨hb, b, rfl⟩
      · exact .inr ⟨hb, rfl⟩

/-- Settles O43: the writers of these four elements act in `Idle` or `Uninitialized` only. -/
theorem scheduledInstanceIsFixed : Obligations.ScheduledInstanceIsFixed := by
  intro s t a rest hp hin ha h
  obtain ⟨hkey, hdir, hrk, _⟩ := eachElementHasItsWriters s t a rest hin ha h
  have hidle : s.phase ≠ .idle := by rcases hp with hp | hp <;> simp [hp]
  have hfresh : s.phase ≠ .uninitialized := by rcases hp with hp | hp <;> simp [hp]
  refine ⟨?_, ?_, ?_, ?_⟩ <;> by_contra hne
  · exact hfresh (hrk hne).1
  · exact hidle (hkey (.inl hne)).1
  · exact hidle (hdir hne).1
  · exact hidle (hkey (.inr hne)).1

/-- What a step that takes a reset leaves. -/
theorem step_of_isReset {s : State} {a : HostAction} {rest : List HostAction} (hin : s.inputs = a :: rest)
    (ha : isReset a) : step s = .next (resetEngine { s with inputs := rest }) :=
  resetInputEqualsResetCommand s rest (by rcases ha with rfl | rfl <;> simp [hin])

/-- Settles O40: a reset leads to `Idle`, and of the other actions the phase's writers make the listed changes only. -/
theorem onlyListedPhaseChanges : Obligations.OnlyListedPhaseChanges := by
  intro s t h
  by_cases hsame : t.phase = s.phase
  · exact .inl hsame
  cases hin : s.inputs with
  | nil =>
    obtain rfl := Host.Outcome.next.inj ((step_of_no_inputs hin).symm.trans h)
    exact .inl rfl
  | cons a rest =>
    by_cases ha : isReset a
    · obtain rfl := Host.Outcome.next.inj ((step_of_isReset hin ha).symm.trans h)
      exact .inr (.inl rfl)
    obtain ⟨_, _, _, _, _, hphase, _⟩ := eachElementHasItsWriters s t a rest hin ha h
    rcases hphase hsame with ht | ⟨hs, ht, _⟩ | ⟨hs, ht, _⟩ | ⟨hs | hs, ht, _⟩
    · exact .inr (.inr (.inl ⟨ht, fun hs => hsame (ht.trans hs.symm)⟩))
    · exact .inr (.inr (.inr (.inl ⟨hs, ht⟩)))
    · exact .inr (.inr (.inr (.inr (.inl ⟨hs, ht⟩))))
    · exact .inr (.inr (.inr (.inr (.inr (.inl ⟨hs, ht⟩)))))
    · exact .inr (.inr (.inr (.inr (.inr (.inr ⟨hs, ht⟩)))))

/-- Settles O42: only a complete block is emitted, and it is emitted whole. -/
theorem outputGrowsByWholeBlocks : Obligations.OutputGrowsByWholeBlocks := by
  intro s t h
  cases hin : s.inputs with
  | nil =>
    obtain rfl := Host.Outcome.next.inj ((step_of_no_inputs hin).symm.trans h)
    exact .inl rfl
  | cons a rest =>
    by_cases ha : isReset a
    · obtain rfl := Host.Outcome.next.inj ((step_of_isReset hin ha).symm.trans h)
      exact .inl rfl
    rcases step_effect_cases hin ha h with rfl | ⟨hf, ⟨f, rfl⟩ | ⟨i, _, hi, hexec⟩⟩
    · exact .inl rfl
    · exact .inl rfl
    rcases exec_effect_cases (s := { s with inputs := rest }) hi hf hexec with ⟨f, rfl⟩ | rfl | ⟨b, _, _, _, rfl⟩ |
      ⟨d, _, _, _, rfl⟩ | ⟨_, _, rfl⟩ | ⟨_, full, he, _, _⟩
    iterate 5 exact .inl rfl
    · rcases he.out_cases with ⟨_, hout⟩ | ⟨_, hout⟩
      · exact .inr hout
      · exact .inl hout

/-- Settles O37: the step takes the first action, and no command touches the port. -/
theorem stepTakesOneActionInOrder : Obligations.StepTakesOneActionInOrder := by
  intro s t h
  cases hin : s.inputs with
  | nil =>
    obtain rfl := Host.Outcome.next.inj ((step_of_no_inputs hin).symm.trans h)
    exact hin
  | cons a rest =>
    by_cases ha : isReset a
    · obtain rfl := Host.Outcome.next.inj ((step_of_isReset hin ha).symm.trans h)
      rfl
    rcases step_effect_cases hin ha h with rfl | ⟨_, ⟨f, rfl⟩ | ⟨i, _, _, hexec⟩⟩
    · rfl
    · rfl
    · exact exec_inputs i _ t hexec

/-- Settles O39: of the cases of a step only the reset leads from `Fault` to another phase. -/
theorem onlyResetLeavesFault : Obligations.OnlyResetLeavesFault := by
  intro s t hf h ht
  rcases step_cases s t h with ⟨_, rfl⟩ | ⟨a, rest, hin, hcase⟩
  · exact absurd hf ht
  · rcases hcase with ⟨ha, rfl⟩ | ⟨_, _, rfl⟩ | ⟨_, hne, _⟩ | ⟨_, hne, _⟩
    · exact ⟨⟨rfl, rfl, rfl, rfl, rfl, rfl⟩, a, rest, hin, ha⟩
    · exact absurd hf ht
    · exact absurd hf hne
    · exact absurd hf hne

/-- Settles O36: with nothing on the port a step is idle. -/
theorem idleEngineRetainsState : Obligations.IdleEngineRetainsState :=
  fun _ => step_of_no_inputs

theorem atReset_reset : AtReset State.reset := ⟨⟨rfl, rfl, rfl, rfl, rfl⟩, rfl⟩

/-- Settles O45: the fields of the reset state, for one engine and for each of a system. -/
theorem runStartsAtReset : Obligations.RunStartsAtReset := by
  refine ⟨⟨atReset_reset, by decide⟩, fun p => ⟨List.length_replicate, fun s hs => ?_⟩⟩
  rw [List.eq_of_mem_replicate hs]
  exact atReset_reset

end Sys2Proof.Machine
end

section
/-! PROOF. The message level: a message of whole blocks is transformed block by block, each block on its own and undone by the
other direction (44_driver_commands R110, R112). -/

namespace Sys2Proof.Machine

/-! ### Messages of whole blocks -/

/-- A statement about every message of whole blocks, from the empty message and one more block in front. -/
theorem whole_blocks_induction {P : List Byte → Prop} (nil : P [])
    (append : ∀ w m : List Byte, w.length = 8 → P m → P (w ++ m)) (m : List Byte) (hm : m.length % 8 = 0) : P m := by
  obtain ⟨n, hn⟩ := Nat.dvd_of_mod_eq_zero hm
  clear hm
  induction n generalizing m with
  | zero => exact List.eq_nil_of_length_eq_zero hn ▸ nil
  | succ n ih =>
    rw [← List.take_append_drop 8 m]
    refine append _ _ ?_ (ih _ ?_)
    · rw [List.length_take]
      omega
    · rw [List.length_drop]
      omega

theorem padded_of_whole_blocks {m : List Byte} (h : m.length % 8 = 0) : padded m = m := by
  simp [padded, padCount, h]

theorem processPadded_append (rk : RoundKeys) (d : Direction) (m₁ m₂ : List Byte) (h : m₁.length % 8 = 0) :
    processPadded rk d (m₁ ++ m₂) = processPadded rk d m₁ ++ processPadded rk d m₂ := by
  revert m₁
  refine whole_blocks_induction rfl fun w m hw ih => ?_
  rw [List.append_assoc, processPadded_append_block _ _ _ _ hw, ih, processPadded_append_block _ _ _ _ hw,
    List.append_assoc]

theorem processBlock_length (rk : RoundKeys) (d : Direction) (m : List Byte) (j : Nat) :
    (processBlock rk d m j).length = 8 := blockBytes_length _

theorem processPadded_length (rk : RoundKeys) (d : Direction) (m : List Byte) :
    (processPadded rk d m).length = 8 * (m.length / 8) := by
  simp [processPadded, List.length_flatMap, processBlock_length, Nat.mul_comm]

/-! ### One block and back -/

theorem processBlock_zero (rk : RoundKeys) (d : Direction) (w : List Byte) :
    processBlock rk d w 0 = blockBytes (block (blockOfBytes fun k => w.getD k 0) rk d) := by
  simp only [processBlock, Nat.mul_zero, Nat.zero_add]

theorem blockBytes_blockOfBytes (w : List Byte) (h : w.length = 8) :
    blockBytes (blockOfBytes fun k => w.getD k 0) = w := by
  apply List.ext_getElem?
  intro k
  by_cases hk : k < 8
  · rw [getElem?_blockBytes _ k hk, slice_blockOfBytes _ k hk, List.getD_eq_getElem _ _ (by omega),
      List.getElem?_eq_getElem (by omega)]
  · rw [List.getElem?_eq_none (by rw [blockBytes_length]; omega), List.getElem?_eq_none (by omega)]

theorem processBlock_decrypt_encrypt (rk : RoundKeys) (w : List Byte) (h : w.length = 8) :
    processBlock rk .decrypt (processBlock rk .encrypt w 0) 0 = w := by
  rw [processBlock_zero, processBlock_zero, blockOfBytes_blockBytes, block_decrypt_encrypt, blockBytes_blockOfBytes w h]

theorem processPadded_decrypt_encrypt (rk : RoundKeys) (m : List Byte) (h : m.length % 8 = 0) :
    processPadded rk .decrypt (processPadded rk .encrypt m) = m := by
  revert m
  refine whole_blocks_induction (by rw [processPadded_nil, processPadded_nil]) fun w m hw ih => ?_
  rw [processPadded_append_block _ _ _ _ hw, processPadded_append_block _ _ _ _ (processBlock_length ..), ih,
    processBlock_decrypt_encrypt rk w hw]

/-! ### The function `PROCESS` -/

theorem process_of_le {key : List Byte} (h : 8 ≤ key.length) (d : Direction) (msg : List Byte) :
    process key d msg = some (processPadded (ks (keyVector key)) d (padded msg)) := if_neg (Nat.not_lt.mpr h)

theorem process_of_lt {key : List Byte} (h : key.length < 8) (d : Direction) (msg : List Byte) :
    process key d msg = none := if_pos h

/-- A value of `PROCESS` is the output of the padded message. -/
theorem process_eq_some_iff (key msg out : List Byte) (d : Direction) : process key d msg = some out ↔
    8 ≤ key.length ∧ out = processPadded (ks (keyVector key)) d (padded msg) := by
  by_cases h : key.length < 8
  · simp [process_of_lt h, h]
  · rw [process_of_le (Nat.not_lt.mp h), Option.some_inj, eq_comm]
    exact ⟨fun e => ⟨Nat.not_lt.mp h, e⟩, fun ⟨_, e⟩ => e⟩

theorem padded_length_mod (m : List Byte) : (padded m).length % 8 = 0 := by
  rw [padded_length]
  omega

theorem processPadded_padded_length (rk : RoundKeys) (d : Direction) (msg : List Byte) :
    (processPadded rk d (padded msg)).length = 8 * ((msg.length + 7) / 8) := by
  rw [processPadded_length, padded_length]
  omega

/-- Settles O54: each of the padded message's blocks gives eight bytes. -/
theorem outputLengthIsPadded : Obligations.OutputLengthIsPadded := by
  intro key msg out d h
  obtain ⟨_, rfl⟩ := (process_eq_some_iff _ _ _ _).mp h
  exact ⟨processPadded_padded_length _ d msg, fun hmsg => by subst hmsg; rfl⟩

/-- Settles O55: the first output is whole blocks, so it gets no padding, and each block is undone by the other direction. -/
theorem roundTripRestoresPaddedMessage : Obligations.RoundTripRestoresPaddedMessage := by
  intro key msg hkey
  have hwhole : (processPadded (ks (keyVector key)) .encrypt (padded msg)).length % 8 = 0 := by
    rw [processPadded_length]
    omega
  refine ⟨_, padded msg, process_of_le hkey .encrypt msg, ?_, rfl, padded_of_whole_blocks⟩
  rw [process_of_le hkey, padded_of_whole_blocks hwhole, processPadded_decrypt_encrypt _ _ (padded_length_mod msg)]

/-- Settles O57: whole blocks in front of a message change neither its padding nor its output. -/
theorem blocksAreIndependent : Obligations.BlocksAreIndependent := by
  intro key msg₁ msg₂ out₁ out₂ d hwhole h₁ h₂
  obtain ⟨hkey, rfl⟩ := (process_eq_some_iff _ _ _ _).mp h₁
  obtain ⟨_, rfl⟩ := (process_eq_some_iff _ _ _ _).mp h₂
  rw [process_of_le hkey, padded_append _ _ hwhole, processPadded_append _ _ _ _ hwhole, padded_of_whole_blocks hwhole]

theorem keyVector_take (key : List Byte) : keyVector (key.take 8) = keyVector key :=
  blockOfBytes_congr fun k hk => by
    simp only [List.getD_eq_getElem?_getD, List.getElem?_take_of_lt hk]

/-- Settles O56: the key vector is made of the first eight key bytes. -/
theorem onlyFirstEightKeyBytesMatter : Obligations.OnlyFirstEightKeyBytesMatter := by
  intro key msg d hkey
  rw [process_of_le hkey, process_of_le (by rw [List.length_take]; omega), keyVector_take]

end Sys2Proof.Machine
end

section
/-! PROOF. The assembler line by line (30_encoding R51, R52). -/

namespace Sys2Proof.Machine

theorem assemble_singleton (line : AsmLine) : assemble [line] = assembleLine line := by
  cases h : assembleLine line <;> simp [assemble, h]

theorem assemble_cons {line : AsmLine} {more : List AsmLine} {ws rest : List CmdWord}
    (hline : assembleLine line = some ws) (hmore : assemble more = some rest) :
    assemble (line :: more) = some (ws ++ rest) := by
  simp only [assemble, hline, hmore]

theorem value_number (b : Byte) : (AsmByte.number b).value = some b := rfl

/-- A quoted character with a code is the number that is its code. -/
theorem value_quoted_of_lt {c : Char} (h : c.toNat < 256) :
    (AsmByte.quoted c).value = (AsmByte.number (BitVec.ofNat 8 c.toNat)).value := if_pos h

theorem value_quoted_of_le {c : Char} (h : 256 ≤ c.toNat) : (AsmByte.quoted c).value = none :=
  if_neg (Nat.not_lt.mpr h)

theorem mapM_value_numbers (bytes : List Byte) : (bytes.map AsmByte.number).mapM AsmByte.value = some bytes := by
  induction bytes with
  | nil => rfl
  | cons b bytes ih => rw [List.map_cons, List.mapM_cons, value_number, ih]; rfl

theorem encode_init (d : Direction) : encode (.init d) = if d = .encrypt then 0x3000#16 else 0x3001#16 := by
  cases d <;> rfl

/-- Settles O6: a list of one line is that line, whose words are those of its bytes; the examples by evaluation. -/
theorem listsAssembleToTheirWords : Obligations.ListsAssembleToTheirWords := by
  refine ⟨fun line more ws rest hline hmore => assemble_cons (assemble_singleton line ▸ hline) hmore, rfl, rfl, rfl, rfl,
    rfl, fun b => ⟨rfl, rfl⟩, fun c hc => ?_, fun c hc => ?_, fun bytes d => ?_, fun bytes => ?_, by decide, by decide⟩
  · simp only [assemble_singleton, assembleLine, value_quoted_of_lt hc, and_self]
  · simp only [assemble_singleton, assembleLine, value_quoted_of_le hc, Option.map_none, and_self]
  · rw [assemble_singleton, assembleLine, mapM_value_numbers, ← encode_init]
    rfl
  · rw [assemble_singleton, assembleLine, mapM_value_numbers]
    rfl

end Sys2Proof.Machine
end

section
/-! PROOF. Runs of the words of `NEW` and `PROCESS`: what the key bytes leave in `KEY`, and what the message bytes append to
`OUT` (44_driver_commands R111, R113). -/

namespace Sys2Proof.Machine

/-! ### One word of a run -/

/-- The first word of a run executes its command. -/
theorem run_command {s t : State} {i : Instr} {rest : List HostAction} (hin : s.inputs = .command (encode i) :: rest)
    (h : exec i { s with inputs := rest } = .next t) (n : Nat) :
    Sys2Proof.core.run (n + 1) s = Sys2Proof.core.run n t := by
  apply run_succ
  rw [step_command s _ rest hin, stepWord_command _ (decode_encode i), h]

/-! ### The key commands in `Idle` -/

theorem exec_keyb_of_idle (b : Byte) {s : State} (hp : s.phase = .idle) :
    exec (.keyb b) s = .next (captureKeyByte b s) := by
  rw [exec_keyb, whenLegal_acceptsKey_of_idle _ hp]

theorem exec_init_of_complete (d : Direction) {s : State} (hp : s.phase = .idle) (hk : 8#4 ≤ s.kcnt) :
    exec (.init d) s = .next { s with dir := d, phase := .uninitialized } := by
  rw [exec_init, whenLegal_acceptsKey_of_idle _ hp, construct_of_le d hk]

theorem exec_init_of_short (d : Direction) {s : State} (hp : s.phase = .idle) (hk : s.kcnt < 8#4) :
    exec (.init d) s = .next (raise .keyShort s) := by
  rw [exec_init, whenLegal_acceptsKey_of_idle _ hp, construct_of_lt d hk]

/-! ### Slots that hold a list's bytes -/

/-- The slots hold the bytes of `w`, as far as they go. -/
def HoldBytes (v : Slots) (w : List Byte) : Prop :=
  ∀ (k : Nat) (hk : k < 8), k < w.length → v[k] = w.getD k 0

theorem holdBytes_nil (v : Slots) : HoldBytes v [] := fun _ _ h => absurd h (Nat.not_lt_zero _)

/-- The next byte goes into the next slot. -/
theorem HoldBytes.after_setSlot {v : Slots} {w : List Byte} (h : HoldBytes v w) (b : Byte) :
    HoldBytes (setSlot v w.length (bits b)) (w ++ [b]) := by
  intro k hk hlt
  rw [List.length_append, List.length_singleton] at hlt
  rw [getElem_setSlot _ _ _ _ hk]
  by_cases hlast : w.length = k
  · subst hlast
    rw [if_pos rfl, bits_eq, List.getD_append_right _ _ _ _ le_rfl, Nat.sub_self]
    rfl
  · rw [if_neg hlast, List.getD_append _ _ _ _ (by omega), h k hk (by omega)]

/-- Bytes after the eighth have no slot. -/
theorem HoldBytes.append_of_full {v : Slots} {w : List Byte} (h : HoldBytes v w) (hw : 8 ≤ w.length) (u : List Byte) :
    HoldBytes v (w ++ u) := fun k hk _ => by
  rw [List.getD_append _ _ _ _ (by omega), h k hk (by omega)]

theorem HoldBytes.joinSlots_eq {v : Slots} {w : List Byte} (h : HoldBytes v w) (hw : 8 ≤ w.length) :
    joinSlots v = blockOfBytes fun k => w.getD k 0 :=
  joinSlots_eq_blockOfBytes v w fun k hk => h k hk (by omega)

/-- Padding a begun block fills its slots with the bytes of the padded message. -/
theorem HoldBytes.after_padSlots {v : Slots} {w : List Byte} (h : HoldBytes v w) (hpos : 0 < w.length) (hlt : w.length < 8) :
    HoldBytes (padSlots v w.length (8 - w.length)) (padded w) := by
  intro k hk _
  have hcount : padCount w.length = 8 - w.length := by
    rw [padCount]
    omega
  rw [getElem_padSlots _ _ _ _ hk, padded, hcount]
  by_cases hin : k < w.length
  · rw [if_neg (by omega), List.getD_append _ _ _ _ hin, h k hk hin]
  · rw [if_pos (by omega), List.getD_append_right _ _ _ _ (by omega), List.getD_replicate _ (by omega), bits_eq]

/-! ### The key bytes of `NEW` -/

/-- `KEY` holds the first eight of the key bytes `w`, and `KCNT` counts them. -/
def KeyCaptured (v : Slots) (n : BitVec 4) (w : List Byte) : Prop :=
  n.toNat = min w.length 8 ∧ HoldBytes v w

theorem captureKeyByte_captures {s : State} {w : List Byte} (h : KeyCaptured s.key s.kcnt w) (b : Byte) :
    ∃ v n, captureKeyByte b s = { s with key := v, kcnt := n } ∧ KeyCaptured v n (w ++ [b]) := by
  obtain ⟨hcount, hheld⟩ := h
  rcases captureKeyByte_cases b s with ⟨hlt, e⟩ | ⟨hle, e⟩
  · have hlt' : s.kcnt.toNat < 8 := hlt
    have hlen : s.kcnt.toNat = w.length := by omega
    refine ⟨_, _, e, ?_, ?_⟩
    · rw [List.length_append, List.length_singleton, BitVec.toNat_add, BitVec.toNat_ofNat]
      omega
    · rw [hlen]
      exact hheld.after_setSlot b
  · have hle' : 8 ≤ s.kcnt.toNat := hle
    refine ⟨s.key, s.kcnt, e, ?_, hheld.append_of_full (by omega) _⟩
    rw [List.length_append]
    omega

theorem run_keyb_words (bs : List Byte) {s : State} {w : List Byte} {rest : List HostAction}
    (hin : s.inputs = bs.map (fun b => .command (encode (.keyb b))) ++ rest) (hp : s.phase = .idle)
    (hw : KeyCaptured s.key s.kcnt w) :
    ∃ v n, Sys2Proof.core.run bs.length s = .next { s with key := v, kcnt := n, inputs := rest }
      ∧ KeyCaptured v n (w ++ bs) := by
  induction bs generalizing s w with
  | nil =>
    have hrest : s.inputs = rest := hin
    refine ⟨s.key, s.kcnt, ?_, by rwa [List.append_nil]⟩
    rw [← hrest]
    rfl
  | cons b bs ih =>
    have hexec := exec_keyb_of_idle
      (s := { s with inputs := bs.map (fun b => .command (encode (.keyb b))) ++ rest }) b hp
    obtain ⟨v, n, hcapture, hw'⟩ := captureKeyByte_captures
      (s := { s with inputs := bs.map (fun b => .command (encode (.keyb b))) ++ rest }) hw b
    rw [hcapture] at hexec
    obtain ⟨v', n', hrun, hw''⟩ := ih (s := { s with
      key := v, kcnt := n, inputs := bs.map (fun b => .command (encode (.keyb b))) ++ rest }) rfl hp hw'
    exact ⟨v', n', (run_command hin hexec _).trans hrun, by rwa [List.append_assoc] at hw''⟩

/-- The words of `NEW`, up to its `INIT`. -/
theorem run_key_of_inResetState {s : State} (hs : InResetState s) (key : List Byte) (rest : List HostAction)
    (hin : s.inputs = key.map (fun b => .command (encode (.keyb b))) ++ rest) :
    ∃ v n, Sys2Proof.core.run key.length s = .next { s with key := v, kcnt := n, inputs := rest }
      ∧ KeyCaptured v n key := by
  obtain ⟨hphase, _, _, hkcnt, _⟩ := hs
  exact run_keyb_words key (w := []) hin hphase ⟨by rw [hkcnt]; rfl, holdBytes_nil _⟩

/-! ### The words of `PROCESS` -/

/-- What the words of a message leave, the bytes `m` counted from its begun block on. -/
structure MessageDone (s : State) (m : List Byte) (t : State) : Prop where
  out_eq : t.out = s.out ++ processPadded (roundKeysInUse s) s.dir (padded m)
  phase_eq : t.phase = .ready
  bcnt_eq : t.bcnt = 0#3
  ecode_eq : t.ecode = s.ecode
  key_eq : t.key = s.key
  dir_eq : t.dir = s.dir
  inputs_eq : t.inputs = []

/-- The bytes `w`, fewer than a block, wait in `IBUF`. -/
def Waiting (s : State) (w : List Byte) : Prop :=
  s.bcnt.toNat = w.length ∧ HoldBytes s.ibuf w

theorem waiting_nil {s : State} (h : s.bcnt = 0#3) : Waiting s [] :=
  ⟨by rw [h]; rfl, holdBytes_nil _⟩

/-- The bytes emitted for slots that hold one block of a message. -/
theorem blockBytes_of_holdBytes {v : Slots} {w : List Byte} (h : HoldBytes v w) (hw : w.length = 8) (rk : RoundKeys)
    (d : Direction) : blockBytes (block (joinSlots v) rk d) = processBlock rk d w 0 := by
  rw [h.joinSlots_eq hw.ge, processBlock_zero]

/-- A message of exactly one block. -/
theorem processPadded_of_block (rk : RoundKeys) (d : Direction) {w : List Byte} (hw : w.length = 8) :
    processPadded rk d w = processBlock rk d w 0 := by
  have h := processPadded_append_block rk d w [] hw
  rwa [List.append_nil, processPadded_nil, List.append_nil] at h

/-- Once a data command has run, the round keys in use are the cached ones, which are those in use before. -/
theorem DataEffect.roundKeysInUse_eq {full : Prop} {s t : State} (h : DataEffect full s t) :
    roundKeysInUse t = roundKeysInUse s := by
  obtain ⟨_, _, _, _, hphase, hrk, _, _⟩ := h.frame
  rw [roundKeysInUse_of_ne (by rw [hphase]; decide), hrk]

/-- The port plays no part in what a message leaves. -/
theorem MessageDone.of_withInputs {s t : State} {m : List Byte} {l : List HostAction}
    (h : MessageDone { s with inputs := l } m t) : MessageDone s m t :=
  { h with }

@[simp] theorem acceptByte_inputs (b : Byte) (s : State) : (acceptByte b s).inputs = s.inputs := by
  rcases acceptByte_cases b s with ⟨_, e⟩ | ⟨_, e⟩ <;> simp [e]

@[simp] theorem finishMessage_inputs (s : State) : (finishMessage s).inputs = s.inputs := by
  rcases finishMessage_cases s with ⟨_, e⟩ | ⟨_, e⟩ <;> simp [e]

/-- A message byte makes the waiting bytes a block, which is emitted, or waits with them. -/
theorem acceptByte_waiting {s : State} {w : List Byte} (h : Waiting s w) (b : Byte) :
    ((w ++ [b]).length = 8 ∧ Waiting (acceptByte b s) []
      ∧ (acceptByte b s).out = s.out ++ processBlock (roundKeysInUse s) s.dir (w ++ [b]) 0)
    ∨ (Waiting (acceptByte b s) (w ++ [b]) ∧ (acceptByte b s).out = s.out) := by
  obtain ⟨hcount, hheld⟩ := h
  have hstored := hheld.after_setSlot b
  rw [← hcount] at hstored
  have hlen : (w ++ [b]).length = s.bcnt.toNat + 1 := by rw [List.length_append, List.length_singleton, hcount]
  rcases acceptByte_cases b s with ⟨hb, e⟩ | ⟨hb, e⟩ <;> rw [e, storeMessageByte_ensureReady]
  · have hfull : (w ++ [b]).length = 8 := by rw [hlen, hb]; rfl
    refine .inl ⟨hfull, waiting_nil (completeBlock_bcnt _), ?_⟩
    rw [completeBlock_out, ensureReady_out, ensureReady_rk, ensureReady_dir, blockBytes_of_holdBytes hstored hfull]
  · refine .inr ⟨⟨?_, hstored⟩, ensureReady_out s⟩
    have hne : s.bcnt.toNat ≠ 7 := fun h7 => hb (BitVec.eq_of_toNat_eq h7)
    rw [hlen, BitVec.toNat_add, BitVec.toNat_ofNat]
    omega

/-- After a message byte, the rest of the message leaves what the message from this byte on leaves. -/
theorem acceptByte_message {s : State} {w : List Byte} (h : Waiting s w) (b : Byte) (msg : List Byte) :
    ∃ w', Waiting (acceptByte b s) w'
      ∧ ∀ t, MessageDone (acceptByte b s) (w' ++ msg) t → MessageDone s (w ++ b :: msg) t := by
  have hkeys := (acceptByte_effect b s).roundKeysInUse_eq
  have frame {w' : List Byte} {t : State} (hdone : MessageDone (acceptByte b s) (w' ++ msg) t)
      (hout : t.out = s.out ++ processPadded (roundKeysInUse s) s.dir (padded ((w ++ [b]) ++ msg))) :
      MessageDone s (w ++ b :: msg) t :=
    { hdone with
      out_eq := by rw [hout, ← List.append_cons]
      ecode_eq := hdone.ecode_eq.trans (acceptByte_ecode b s)
      key_eq := hdone.key_eq.trans (acceptByte_key b s)
      dir_eq := hdone.dir_eq.trans (acceptByte_dir b s) }
  rcases acceptByte_waiting h b with ⟨hfull, hw', hout⟩ | ⟨hw', hout⟩
  · refine ⟨[], hw', fun t hdone => frame hdone ?_⟩
    rw [hdone.out_eq, hout, hkeys, acceptByte_dir, List.nil_append, padded_append (w ++ [b]) msg (by rw [hfull]),
      processPadded_append_block _ _ _ _ hfull, List.append_assoc]
  · refine ⟨w ++ [b], hw', fun t hdone => frame hdone ?_⟩
    rw [hdone.out_eq, hout, hkeys, acceptByte_dir]

/-- The end of a message emits the padded rest of it. -/
theorem finishMessage_message {s : State} {w : List Byte} (h : Waiting s w) (hin : s.inputs = []) :
    MessageDone s w (finishMessage s) := by
  obtain ⟨hcount, hheld⟩ := h
  refine ⟨?_, finishMessage_phase s, ?_, finishMessage_ecode s, finishMessage_key s, finishMessage_dir s,
    (finishMessage_inputs s).trans hin⟩ <;> rcases finishMessage_cases s with ⟨hb, e⟩ | ⟨hb, e⟩ <;> rw [e]
  · have hne : s.bcnt.toNat ≠ 0 := fun h0 => hb (BitVec.eq_of_toNat_eq h0)
    have hfull : (padded w).length = 8 := by
      rw [padded_length]
      omega
    have hpadded := hheld.after_padSlots (by omega) (by omega)
    rw [← hcount] at hpadded
    rw [padBlock_ensureReady, completeBlock_out, ensureReady_out, ensureReady_rk, ensureReady_dir,
      blockBytes_of_holdBytes hpadded hfull, processPadded_of_block _ _ hfull]
  · have hnil : w = [] := List.eq_nil_of_length_eq_zero (by rw [← hcount, hb]; rfl)
    rw [hnil]
    exact (ensureReady_out s).trans (List.append_nil _).symm
  · exact completeBlock_bcnt _
  · exact (ensureReady_bcnt s).trans hb

/-- By induction on the message, with the bytes waiting from before it. -/
theorem run_processWords (msg : List Byte) {s : State} {w : List Byte}
    (hin : s.inputs = (processWords msg).map .command)
    (hp : s.phase = .uninitialized ∨ s.phase = .keysScheduled ∨ s.phase = .ready) (hw : Waiting s w) :
    ∃ t, Sys2Proof.core.run (msg.length + 1) s = .next t ∧ MessageDone s (w ++ msg) t := by
  induction msg generalizing s w with
  | nil =>
    have hexec := exec_final_of_instance (s := { s with inputs := [] }) hp
    have hdone := finishMessage_message (s := { s with inputs := [] }) hw rfl
    rw [List.append_nil]
    exact ⟨_, run_command hin hexec 0, hdone.of_withInputs⟩
  | cons b msg ih =>
    have hexec := exec_datab_of_instance (s := { s with inputs := (processWords msg).map .command }) b hp
    obtain ⟨w', hw', hdone⟩ :=
      acceptByte_message (s := { s with inputs := (processWords msg).map .command }) hw b msg
    obtain ⟨t, hrun, ht⟩ := ih (acceptByte_inputs b _) (.inr (.inr (acceptByte_phase b _))) hw'
    exact ⟨t, (run_command hin hexec _).trans hrun, (hdone t ht).of_withInputs⟩

/-! ### The statements -/

/-- Settles O50: with no byte waiting the message starts a block, and the invariants make the round keys in use the schedule
of `KEY`. -/
theorem messageAppendsItsOutput : Obligations.MessageAppendsItsOutput := by
  intro s msg hinv hp hb
  obtain ⟨t, hrun, hdone⟩ := run_processWords msg (s := presentWords (processWords msg) s) rfl hp (waiting_nil hb)
  have hkeys : roundKeysInUse (presentWords (processWords msg) s) = ks (joinSlots s.key) :=
    roundKeysInUse_eq_ks (s := s) hinv hp
  have hout := hdone.out_eq
  rw [hkeys, List.nil_append] at hout
  have hecode : s.ecode = .noFault := hinv.ecode_eq_noFault (by rcases hp with hp | hp | hp <;> simp [hp])
  refine ⟨t, hrun, hout, ?_, hdone.phase_eq, hdone.bcnt_eq, hdone.ecode_eq.trans hecode,
    ⟨by simp [hdone.phase_eq], hdone.bcnt_eq⟩, hdone.key_eq, hdone.dir_eq, hdone.inputs_eq⟩
  rw [hout, List.length_append, processPadded_padded_length]
  rfl

/-- The port after the words of `NEW key, d` and then `ws` are presented. -/
theorem newWords_inputs (key : List Byte) (d : Direction) (ws : List CmdWord) :
    (newWords key d ++ ws).map HostAction.command = key.map (fun b => .command (encode (.keyb b)))
      ++ .command (encode (.init d)) :: ws.map .command := by
  simp [newWords]

/-- Settles O51: eight captured bytes make the key vector, `INIT` finds the key complete, and the message starts with no
byte waiting. -/
theorem constructionThenMessage : Obligations.ConstructionThenMessage := by
  intro s key msg d hs hkey
  obtain ⟨v, n, hrun, hcount, hheld⟩ := run_key_of_inResetState
    (s := presentWords (newWords key d ++ processWords msg) s) hs key _ (newWords_inputs key d (processWords msg))
  obtain ⟨hphase, _, hecode, _, hbcnt⟩ := hs
  have hcomplete : 8#4 ≤ n := BitVec.le_def.mpr (by rw [hcount, BitVec.toNat_ofNat]; omega)
  have hinit := exec_init_of_complete d
    (s := { s with key := v, kcnt := n, inputs := (processWords msg).map .command }) hphase hcomplete
  obtain ⟨t, hmessage, hdone⟩ := run_processWords msg (w := []) (s := { s with
    key := v, kcnt := n, inputs := (processWords msg).map .command, dir := d, phase := .uninitialized })
    rfl (.inl rfl) (waiting_nil hbcnt)
  have hvector : joinSlots v = keyVector key := hheld.joinSlots_eq hkey
  refine ⟨t, _, ?_, process_of_le hkey d msg, ?_, hdone.phase_eq, hdone.bcnt_eq, hdone.ecode_eq.trans hecode⟩
  · rw [Nat.add_assoc, run_add _ _ _ _ hrun, Nat.add_comm 1]
    exact (run_command rfl hinit _).trans hmessage
  · rw [← hvector]
    exact hdone.out_eq

/-- In `Fault` a run of words other than `0x1000` only takes them. -/
theorem run_of_fault (ws : List CmdWord) {s : State} (hin : s.inputs = ws.map .command) (hf : s.phase = .fault)
    (hws : ∀ w ∈ ws, w ≠ 0x1000#16) : Sys2Proof.core.run ws.length s = .next { s with inputs := [] } := by
  induction ws generalizing s with
  | nil =>
    have hnil : s.inputs = [] := hin
    rw [← hnil]
    rfl
  | cons w ws ih =>
    have hstep : step s = .next { s with inputs := ws.map .command } := (step_command s w _ hin).trans
      (stepWord_of_fault (s := { s with inputs := ws.map .command }) (hws w List.mem_cons_self) hf)
    rw [List.length_cons, run_succ _ _ _ hstep]
    exact ih (s := { s with inputs := ws.map .command }) rfl hf fun w' h => hws w' (List.mem_cons_of_mem w h)

/-- Settles O52: `INIT` finds the key short and raises, and in `Fault` the words that follow are only taken. -/
theorem shortKeyIsRefused : Obligations.ShortKeyIsRefused := by
  intro s key d ws hs hkey hws
  refine ⟨?_, process_of_lt hkey d⟩
  obtain ⟨v, n, hrun, hcount, _⟩ := run_key_of_inResetState
    (s := presentWords (newWords key d ++ ws) s) hs key _ (newWords_inputs key d ws)
  obtain ⟨hphase, _⟩ := hs
  have hshort : n < 8#4 := BitVec.lt_def.mpr (by rw [hcount, BitVec.toNat_ofNat]; omega)
  have hinit := exec_init_of_short d (s := { s with key := v, kcnt := n, inputs := ws.map .command }) hphase hshort
  refine ⟨raise .keyShort { s with key := v, kcnt := n, inputs := [] }, ?_, rfl, rfl, rfl,
    hcount.trans (Nat.min_eq_left hkey.le), rfl⟩
  rw [Nat.add_assoc, run_add _ _ _ _ hrun, Nat.add_comm 1]
  exact (run_command rfl hinit _).trans (run_of_fault ws rfl rfl hws)

end Sys2Proof.Machine
end

section
/-! PROOF. `KSCHED` in front of a run: the engine that has run it and the one that has not agree after the next word
(41_key_schedule R77, R78). -/

namespace Sys2Proof.Machine

theorem AgreeWhereWritten.refl (s : State) : AgreeWhereWritten s s :=
  ⟨rfl, rfl, rfl, rfl, rfl, rfl, rfl, fun _ _ => rfl, fun _ _ => rfl, fun _ => rfl⟩

/-- The schedule makes no difference once the phase is one in which `RK` holds no value. -/
theorem raise_agree_ensureSchedule (f : Cause) (s : State) :
    AgreeWhereWritten (raise f s) (raise f (ensureSchedule s)) := by
  rw [ensureSchedule_eq_withWorkingOf]
  exact ⟨rfl, rfl, rfl, rfl, rfl, rfl, rfl, fun _ _ => rfl, fun _ _ => rfl, nofun⟩

theorem resetEngine_agree_ensureSchedule (s : State) :
    AgreeWhereWritten (resetEngine s) (resetEngine (ensureSchedule s)) := by
  rw [ensureSchedule_eq_withWorkingOf]
  exact ⟨rfl, rfl, rfl, rfl, rfl, rfl, rfl, nofun, nofun, nofun⟩

theorem ensureSchedule_keeps_instance {s : State}
    (h : s.phase = .uninitialized ∨ s.phase = .keysScheduled ∨ s.phase = .ready) :
    (ensureSchedule s).phase = .uninitialized ∨ (ensureSchedule s).phase = .keysScheduled
      ∨ (ensureSchedule s).phase = .ready := by
  rw [ensureSchedule_phase]
  rcases h with h | h | h <;> simp [h]

/-- In an instance `KEYB` and `INIT` raise, and the other commands generate the schedule or reset. -/
theorem exec_agree_ensureSchedule {s : State}
    (h : s.phase = .uninitialized ∨ s.phase = .keysScheduled ∨ s.phase = .ready) (i : Instr) :
    AnswersAgree (exec i s) (exec i (ensureSchedule s)) := by
  have h' := ensureSchedule_keeps_instance h
  cases i with
  | reset => exact ⟨_, _, rfl, rfl, resetEngine_agree_ensureSchedule s⟩
  | keyb b =>
    rw [exec_keyb, exec_keyb, whenLegal_acceptsKey_of_instance _ h, whenLegal_acceptsKey_of_instance _ h']
    exact ⟨_, _, rfl, rfl, raise_agree_ensureSchedule _ s⟩
  | init d =>
    rw [exec_init, exec_init, whenLegal_acceptsKey_of_instance _ h, whenLegal_acceptsKey_of_instance _ h']
    exact ⟨_, _, rfl, rfl, raise_agree_ensureSchedule _ s⟩
  | ksched =>
    rw [exec_ksched_of_instance h, exec_ksched_of_instance h', ensureSchedule_ensureSchedule]
    exact ⟨_, _, rfl, rfl, .refl _⟩
  | datab b =>
    rw [exec_datab_of_instance b h, exec_datab_of_instance b h', acceptByte_ensureSchedule]
    exact ⟨_, _, rfl, rfl, .refl _⟩
  | final =>
    rw [exec_final_of_instance h, exec_final_of_instance h', finishMessage_ensureSchedule]
    exact ⟨_, _, rfl, rfl, .refl _⟩

theorem stepWord_agree_ensureSchedule {s : State}
    (h : s.phase = .uninitialized ∨ s.phase = .keysScheduled ∨ s.phase = .ready) (w : CmdWord) :
    AnswersAgree (stepWord w s) (stepWord w (ensureSchedule s)) := by
  cases hd : decode w with
  | command i =>
    rw [stepWord_command s hd, stepWord_command _ hd]
    exact exec_agree_ensureSchedule h i
  | illegal why =>
    have hf : s.phase ≠ .fault := by rcases h with h | h | h <;> simp [h]
    rw [stepWord_illegal s w why hd, stepWord_illegal _ w why hd, if_neg hf,
      if_neg (ensureSchedule_phase_ne_fault s hf)]
    exact ⟨_, _, rfl, rfl, raise_agree_ensureSchedule _ s⟩

/-- The port plays no part in the schedule. -/
theorem ensureSchedule_withInputs (s : State) (l : List HostAction) :
    ensureSchedule { s with inputs := l } = { ensureSchedule s with inputs := l } := by
  by_cases h : s.phase = .uninitialized <;> simp [ensureSchedule, h]

/-- Settles O53: with no word to follow the two ends differ by the schedule alone; else the two engines agree after the first
word, and from there on. -/
theorem kschedChangesNoOutput : Obligations.KschedChangesNoOutput := by
  intro s ws t t' hinv hp ht ht'
  have hksched : exec .ksched (presentWords ws s) = .next (ensureSchedule (presentWords ws s)) :=
    exec_ksched_of_instance hp
  rw [run_command (s := presentWords (encode .ksched :: ws) s) rfl hksched] at ht'
  cases ws with
  | nil =>
    obtain rfl := Host.Outcome.next.inj ht
    obtain rfl := Host.Outcome.next.inj ht'
    rw [ensureSchedule_eq_withWorkingOf]
    exact ⟨rfl, rfl, rfl, rfl, rfl⟩
  | cons w ws =>
    obtain ⟨u, u', hu, hu', hagree⟩ := stepWord_agree_ensureSchedule (s := presentWords ws s) hp w
    have hstep : step (presentWords (w :: ws) s) = .next u := (step_command _ w _ rfl).trans hu
    have hstep' : step (ensureSchedule (presentWords (w :: ws) s)) = .next u' := by
      rw [step_command _ w (ws.map .command) (exec_inputs _ _ _ hksched), ← ensureSchedule_withInputs]
      exact hu'
    have hcomplete : KeyComplete u := step_keeps_keyComplete (s := presentWords (w :: ws) s) hinv.keyComplete hstep
    obtain ⟨x, x', hx, hx', hend⟩ := run_agree ws.length hagree hcomplete
    rw [List.length_cons, run_succ _ _ _ hstep, hx] at ht
    rw [List.length_cons, run_succ _ _ _ hstep', hx'] at ht'
    obtain rfl := Host.Outcome.next.inj ht
    obtain rfl := Host.Outcome.next.inj ht'
    exact ⟨hend.out_eq.symm, hend.bcnt_eq.symm, hend.ecode_eq.symm, hend.kcnt_eq.symm, hend.dir_eq.symm⟩

end Sys2Proof.Machine
end
